-- ==== Sys2Proof/Word.lean ====
section
/-! DEFINITION. The words of the machine: register width, bytes, and register indices (00_scope.md R8, R9). -/

namespace Sys2Proof

/-- A value of register width, `XLEN` = 32 bits: every general register, the PC, an address and an instruction word
(00_scope.md R8, R10; the width is the spec's decision D1). -/
abbrev Word := BitVec 32

/-- A byte of memory, 8 bits (20_memory.md R40, GK6). -/
abbrev Byte := BitVec 8

/-- A register index 0 to 31, as the 5-bit fields `rd`, `rs1`, `rs2` carry it (10_state.md R21, 30_encoding.md R61). -/
abbrev RegIdx := Fin 32

/-- The number of byte addresses, `2^XLEN` (20_memory.md R40). -/
abbrev addressSpace : Nat := 2 ^ 32

end Sys2Proof
end

