-- ==== Sys2Proof/Syntax.lean ====
section
/-! DEFINITION. The instruction set as data: the eleven format tags (30_encoding.md R68), the decoder's tagged output
(40_decode_dispatch.md R92, R93) and the twenty instructions of spec/opcode_table.json. -/

namespace Sys2Proof

/-- The eleven format tags an opcode selects (30_encoding.md R68). -/
inductive Format where
  | registerRegister
  | branch
  | immediate
  | load
  | store
  | loadUpperImmediate
  | addUpperImmediateToPc
  | jumpAndLink
  | jumpAndLinkRegister
  | fence
  | system
deriving DecidableEq, Repr

/-- The decoder's output: one constructor per format tag, carrying exactly the fields of the layout of that tag
(40_decode_dispatch.md R92, R93; layouts 30_encoding.md R62 to R67). A field of another layout cannot be read: the
access that R81 calls undefined by design cannot be written. -/
inductive Fields where
  /-- Layout R. -/
  | registerRegister (funct7 : BitVec 7) (rs2 rs1 : RegIdx) (funct3 : BitVec 3) (rd : RegIdx)
  /-- Layout B, with the four immediate slices the source names. -/
  | branch (imm12 : BitVec 1) (imm5_10 : BitVec 6) (rs2 rs1 : RegIdx) (funct3 : BitVec 3) (imm1_4 : BitVec 4)
      (imm11 : BitVec 1)
  /-- Layout I. -/
  | immediate (imm : BitVec 12) (rs1 : RegIdx) (funct3 : BitVec 3) (rd : RegIdx)
  /-- Layout I, placeholder format. -/
  | load (imm : BitVec 12) (rs1 : RegIdx) (funct3 : BitVec 3) (rd : RegIdx)
  /-- Layout S, placeholder format. -/
  | store (imm11_5 : BitVec 7) (rs2 rs1 : RegIdx) (funct3 : BitVec 3) (imm4_0 : BitVec 5)
  /-- Layout U. -/
  | loadUpperImmediate (imm31_12 : BitVec 20) (rd : RegIdx)
  /-- Layout U. -/
  | addUpperImmediateToPc (imm31_12 : BitVec 20) (rd : RegIdx)
  /-- Layout J, with the four immediate slices the source names. -/
  | jumpAndLink (imm20 : BitVec 1) (imm1_10 : BitVec 10) (imm11 : BitVec 1) (imm12_19 : BitVec 8) (rd : RegIdx)
  /-- Layout I, placeholder format. -/
  | jumpAndLinkRegister (imm : BitVec 12) (rs1 : RegIdx) (funct3 : BitVec 3) (rd : RegIdx)
  /-- Layout I, placeholder format. -/
  | fence (imm : BitVec 12) (rs1 : RegIdx) (funct3 : BitVec 3) (rd : RegIdx)
  /-- Layout I. -/
  | system (imm : BitVec 12) (rs1 : RegIdx) (funct3 : BitVec 3) (rd : RegIdx)
  /-- The opcode is none of the eleven. -/
  | unrecognized (opcode : BitVec 7)
deriving DecidableEq, Repr

/-- The twenty rows of the opcode map (30_encoding.md R76). Immediates are the raw encoded fields; the units scale and
extend them (Sys2Proof/Machine/Operands.lean). Bits that R77 calls ignored are not kept, so that words differing only
there are the same instruction; the four placeholder formats keep every field, because their diagnostic reports the
whole word (60_exceptions.md R208). -/
inductive Instr where
  /-- R120 -/
  | add (rd rs1 rs2 : RegIdx)
  /-- R121 -/
  | sub (rd rs1 rs2 : RegIdx)
  /-- R122 -/
  | xor (rd rs1 rs2 : RegIdx)
  /-- R130; `imm` is `imm[11:0]`. -/
  | addi (rd rs1 : RegIdx) (imm : BitVec 12)
  /-- R131 -/
  | slli (rd rs1 : RegIdx) (shamt : BitVec 5)
  /-- R141; `raw` is `raw_B` of 30_encoding.md R72, before scaling. -/
  | beq (rs1 rs2 : RegIdx) (raw : BitVec 12)
  /-- R142 -/
  | bne (rs1 rs2 : RegIdx) (raw : BitVec 12)
  /-- R143 -/
  | blt (rs1 rs2 : RegIdx) (raw : BitVec 12)
  /-- R144 -/
  | bge (rs1 rs2 : RegIdx) (raw : BitVec 12)
  /-- R145 -/
  | bltu (rs1 rs2 : RegIdx) (raw : BitVec 12)
  /-- R146 -/
  | bgeu (rs1 rs2 : RegIdx) (raw : BitVec 12)
  /-- R155; `raw` is `raw_J` of 30_encoding.md R73, before scaling. -/
  | jal (rd : RegIdx) (raw : BitVec 20)
  /-- R165; `imm20` is `w[31:12]`. -/
  | lui (rd : RegIdx) (imm20 : BitVec 20)
  /-- R166 -/
  | auipc (rd : RegIdx) (imm20 : BitVec 20)
  /-- R175 -/
  | ecall
  /-- R176 -/
  | ebreak
  /-- R195, placeholder. -/
  | load (imm : BitVec 12) (rs1 : RegIdx) (funct3 : BitVec 3) (rd : RegIdx)
  /-- R196, placeholder; `imm` is `w[31:25] ‖ w[11:7]`. -/
  | store (imm : BitVec 12) (rs2 rs1 : RegIdx) (funct3 : BitVec 3)
  /-- R197, placeholder. -/
  | fence (imm : BitVec 12) (rs1 : RegIdx) (funct3 : BitVec 3) (rd : RegIdx)
  /-- R198, placeholder. -/
  | jalr (imm : BitVec 12) (rs1 : RegIdx) (funct3 : BitVec 3) (rd : RegIdx)
deriving DecidableEq, Repr

/-- What the dispatch router answers for a word (40_decode_dispatch.md R97): an instruction, a recognised format whose
key matches no operation (with the key as the masked word, D26), or an unrecognised opcode. -/
inductive Routed where
  | instr (i : Instr)
  /-- 60_exceptions.md R207 -/
  | unmatched (format : Format) (key : Word)
  /-- 60_exceptions.md R206 -/
  | unrecognized (opcode : BitVec 7) (word : Word)
deriving DecidableEq, Repr

/-- One row of the opcode map in table form: a word `w` is the row's instruction exactly when `w AND mask = pattern`
(30_encoding.md R76). -/
structure OpcodeRow where
  mnemonic : String
  mask : Word
  pattern : Word
deriving DecidableEq, Repr

end Sys2Proof
end

