-- ==== Sys2Proof/WellFormed.lean ====
section
/-! DEFINITION. Well-formedness of the decoder's output: the dispatch key of the format names an operation
(30_encoding.md R69, R78). An `Instr` needs no check of its own: every operand has exactly the values its field can
hold (R61, R70 to R75), so every term of `Instr` is an instruction. -/

namespace Sys2Proof

/-- The key of the tagged fields selects an operation or a placeholder format. The three formats with a sub-key are the
only ones that can fail (30_encoding.md R78, 90_conflicts.md C10), and an unrecognised opcode has no operation (R79). -/
def Fields.wellFormed : Fields → Bool
  | .registerRegister funct7 _ _ funct3 _ =>
      (funct3 == 0b000#3 && funct7 == 0b0000000#7) || (funct3 == 0b000#3 && funct7 == 0b0100000#7) ||
        (funct3 == 0b100#3 && funct7 == 0b0000000#7)
  | .immediate _ _ funct3 _ => funct3 == 0b000#3 || funct3 == 0b001#3
  | .branch _ _ _ _ funct3 _ _ => funct3 != 0b010#3 && funct3 != 0b011#3
  | .unrecognized _ => false
  | .load _ _ _ _ => true
  | .store _ _ _ _ _ => true
  | .loadUpperImmediate _ _ => true
  | .addUpperImmediateToPc _ _ => true
  | .jumpAndLink _ _ _ _ _ => true
  | .jumpAndLinkRegister _ _ _ _ => true
  | .fence _ _ _ _ => true
  | .system _ _ _ _ => true

end Sys2Proof
end

