-- ==== Sys2Proof/Decode.lean ====
section
/-! DEFINITION. The decoder and the dispatch router (40_decode_dispatch.md R92 to R94, R97), the opcode map as data
(30_encoding.md R76), the byte order of a word (20_memory.md R43), and the encoder. -/

namespace Sys2Proof

/-! ## Fields common to the layouts (30_encoding.md R61) -/

/-- `w[6:0]`, "its low 7 bits". -/
def opcodeOf (w : Word) : BitVec 7 := w.extractLsb' 0 7
/-- `rd = w[11:7]`. -/
def rdOf (w : Word) : RegIdx := (w.extractLsb' 7 5).toFin
/-- `funct3 = w[14:12]`. -/
def funct3Of (w : Word) : BitVec 3 := w.extractLsb' 12 3
/-- `rs1 = w[19:15]`. -/
def rs1Of (w : Word) : RegIdx := (w.extractLsb' 15 5).toFin
/-- `rs2 = w[24:20]`. -/
def rs2Of (w : Word) : RegIdx := (w.extractLsb' 20 5).toFin
/-- `funct7 = w[31:25]`. -/
def funct7Of (w : Word) : BitVec 7 := w.extractLsb' 25 7
/-- `imm[11:0] = w[31:20]` of the immediate layout (R63). -/
def immIOf (w : Word) : BitVec 12 := w.extractLsb' 20 12

/-! ## Opcode, format tag and dispatch key (30_encoding.md R68, R69) -/

/-- The opcode of each format. -/
def Format.opcode : Format → BitVec 7
  | .registerRegister => 0x33#7
  | .branch => 0x63#7
  | .immediate => 0x13#7
  | .load => 0x03#7
  | .store => 0x23#7
  | .loadUpperImmediate => 0x37#7
  | .addUpperImmediateToPc => 0x17#7
  | .jumpAndLink => 0x6F#7
  | .jumpAndLinkRegister => 0x67#7
  | .fence => 0x0F#7
  | .system => 0x73#7

/-- The format tag of an opcode; `none` is the tag "unrecognized". All seven bits are compared. -/
def formatOf (opcode : BitVec 7) : Option Format :=
  if opcode = Format.opcode .registerRegister then some .registerRegister
  else if opcode = Format.opcode .branch then some .branch
  else if opcode = Format.opcode .immediate then some .immediate
  else if opcode = Format.opcode .load then some .load
  else if opcode = Format.opcode .store then some .store
  else if opcode = Format.opcode .loadUpperImmediate then some .loadUpperImmediate
  else if opcode = Format.opcode .addUpperImmediateToPc then some .addUpperImmediateToPc
  else if opcode = Format.opcode .jumpAndLink then some .jumpAndLink
  else if opcode = Format.opcode .jumpAndLinkRegister then some .jumpAndLinkRegister
  else if opcode = Format.opcode .fence then some .fence
  else if opcode = Format.opcode .system then some .system
  else none

/-- The bits of the word that take part in the dispatch key of a format (R69, column "mask"). -/
def Format.keyMask : Format → Word
  | .registerRegister => 0xFE00707F#32
  | .immediate => 0x0000707F#32
  | .branch => 0x0000707F#32
  | .loadUpperImmediate => 0x0000007F#32
  | .addUpperImmediateToPc => 0x0000007F#32
  | .jumpAndLink => 0x0000007F#32
  | .system => 0x0010007F#32
  | .load => 0x0000007F#32
  | .store => 0x0000007F#32
  | .fence => 0x0000007F#32
  | .jumpAndLinkRegister => 0x0000007F#32

/-! ## The decoder -/

/-- The fields of the layout that a format tag selects (R62 to R67). -/
def fieldsUnder (w : Word) : Format → Fields
  | .registerRegister => .registerRegister (funct7Of w) (rs2Of w) (rs1Of w) (funct3Of w) (rdOf w)
  | .branch =>
      .branch (w.extractLsb' 31 1) (w.extractLsb' 25 6) (rs2Of w) (rs1Of w) (funct3Of w) (w.extractLsb' 8 4)
        (w.extractLsb' 7 1)
  | .immediate => .immediate (immIOf w) (rs1Of w) (funct3Of w) (rdOf w)
  | .load => .load (immIOf w) (rs1Of w) (funct3Of w) (rdOf w)
  | .store => .store (funct7Of w) (rs2Of w) (rs1Of w) (funct3Of w) (w.extractLsb' 7 5)
  | .loadUpperImmediate => .loadUpperImmediate (w.extractLsb' 12 20) (rdOf w)
  | .addUpperImmediateToPc => .addUpperImmediateToPc (w.extractLsb' 12 20) (rdOf w)
  | .jumpAndLink =>
      .jumpAndLink (w.extractLsb' 31 1) (w.extractLsb' 21 10) (w.extractLsb' 20 1) (w.extractLsb' 12 8) (rdOf w)
  | .jumpAndLinkRegister => .jumpAndLinkRegister (immIOf w) (rs1Of w) (funct3Of w) (rdOf w)
  | .fence => .fence (immIOf w) (rs1Of w) (funct3Of w) (rdOf w)
  | .system => .system (immIOf w) (rs1Of w) (funct3Of w) (rdOf w)

/-- The decoder: a pure, total function of the word (R92). -/
def decodeFields (w : Word) : Fields :=
  match formatOf (opcodeOf w) with
  | some f => fieldsUnder w f
  | none => .unrecognized (opcodeOf w)

/-! ## The dispatch router -/

/-- Selection of the operation inside the format by its key (R69, R76, R77), with the immediate slices concatenated as
R72, R73 and R75 say. `none`: the key matches no operation (R78). -/
def select : Fields → Option Instr
  | .registerRegister funct7 rs2 rs1 funct3 rd =>
      if funct3 = 0b000#3 ∧ funct7 = 0b0000000#7 then some (.add rd rs1 rs2)
      else if funct3 = 0b000#3 ∧ funct7 = 0b0100000#7 then some (.sub rd rs1 rs2)
      else if funct3 = 0b100#3 ∧ funct7 = 0b0000000#7 then some (.xor rd rs1 rs2)
      else none
  | .immediate imm rs1 funct3 rd =>
      if funct3 = 0b000#3 then some (.addi rd rs1 imm)
      else if funct3 = 0b001#3 then some (.slli rd rs1 (imm.extractLsb' 0 5))
      else none
  | .branch imm12 imm5_10 rs2 rs1 funct3 imm1_4 imm11 =>
      if funct3 = 0b000#3 then some (.beq rs1 rs2 (imm12 ++ imm11 ++ imm5_10 ++ imm1_4))
      else if funct3 = 0b001#3 then some (.bne rs1 rs2 (imm12 ++ imm11 ++ imm5_10 ++ imm1_4))
      else if funct3 = 0b100#3 then some (.blt rs1 rs2 (imm12 ++ imm11 ++ imm5_10 ++ imm1_4))
      else if funct3 = 0b101#3 then some (.bge rs1 rs2 (imm12 ++ imm11 ++ imm5_10 ++ imm1_4))
      else if funct3 = 0b110#3 then some (.bltu rs1 rs2 (imm12 ++ imm11 ++ imm5_10 ++ imm1_4))
      else if funct3 = 0b111#3 then some (.bgeu rs1 rs2 (imm12 ++ imm11 ++ imm5_10 ++ imm1_4))
      else none
  | .jumpAndLink imm20 imm1_10 imm11 imm12_19 rd => some (.jal rd (imm20 ++ imm12_19 ++ imm11 ++ imm1_10))
  | .loadUpperImmediate imm31_12 rd => some (.lui rd imm31_12)
  | .addUpperImmediateToPc imm31_12 rd => some (.auipc rd imm31_12)
  -- the one-bit rule (46_system.md R177): `w[20]` is bit 0 of the layout-I immediate
  | .system imm _ _ _ => if imm.extractLsb' 0 1 = 0b0#1 then some .ecall else some .ebreak
  | .load imm rs1 funct3 rd => some (.load imm rs1 funct3 rd)
  | .store imm11_5 rs2 rs1 funct3 imm4_0 => some (.store (imm11_5 ++ imm4_0) rs2 rs1 funct3)
  | .fence imm rs1 funct3 rd => some (.fence imm rs1 funct3 rd)
  | .jumpAndLinkRegister imm rs1 funct3 rd => some (.jalr imm rs1 funct3 rd)
  | .unrecognized _ => none

/-- The router: "routes by opcode to a format, routes within format by composite key" (R97). Total on every word; a
word without an instruction is rejected by name, with the payload its diagnostic carries (R206, R207). -/
def route (w : Word) : Routed :=
  match formatOf (opcodeOf w) with
  | none => .unrecognized (opcodeOf w) w
  | some f =>
    match select (decodeFields w) with
    | some i => .instr i
    | none => .unmatched f (w &&& f.keyMask)

/-! ## Byte order (20_memory.md R43) -/

/-- The word at `a` from the bytes `b0, b1, b2, b3` at `a, a+1, a+2, a+3`: little-endian, `b3 ‖ b2 ‖ b1 ‖ b0`. -/
def wordOfBytes (b0 b1 b2 b3 : Byte) : Word := b3 ++ b2 ++ b1 ++ b0

/-- Byte `k` of a word in memory order. -/
def byteOfWord (w : Word) (k : Nat) : Byte := w.extractLsb' (8 * k) 8

/-- The decoder's reading of one table row's bits, laid out in memory order and read back (bit 0 is the least
significant bit of the one 32-bit word; bits above `nbits` are 0). No instruction is longer than 32 bits (R60). -/
def decodeTableWord (nbits w : Nat) : Option Instr :=
  if nbits ≤ 32 then
    let v : Word := BitVec.ofNat 32 (w % 2 ^ nbits)
    match route (wordOfBytes (byteOfWord v 0) (byteOfWord v 1) (byteOfWord v 2) (byteOfWord v 3)) with
    | .instr i => some i
    | .unmatched _ _ => none
    | .unrecognized _ _ => none
  else none

/-! ## The opcode map as data (30_encoding.md R76) -/

/-- The twenty rows, in the order of R76. -/
def opcodeTable : List OpcodeRow :=
  [⟨"ADD", 0xFE00707F#32, 0x00000033#32⟩, ⟨"SUB", 0xFE00707F#32, 0x40000033#32⟩,
   ⟨"XOR", 0xFE00707F#32, 0x00004033#32⟩, ⟨"ADDI", 0x0000707F#32, 0x00000013#32⟩,
   ⟨"SLLI", 0x0000707F#32, 0x00001013#32⟩, ⟨"BEQ", 0x0000707F#32, 0x00000063#32⟩,
   ⟨"BNE", 0x0000707F#32, 0x00001063#32⟩, ⟨"BLT", 0x0000707F#32, 0x00004063#32⟩,
   ⟨"BGE", 0x0000707F#32, 0x00005063#32⟩, ⟨"BLTU", 0x0000707F#32, 0x00006063#32⟩] ++
  [⟨"BGEU", 0x0000707F#32, 0x00007063#32⟩, ⟨"JAL", 0x0000007F#32, 0x0000006F#32⟩,
   ⟨"LUI", 0x0000007F#32, 0x00000037#32⟩, ⟨"AUIPC", 0x0000007F#32, 0x00000017#32⟩,
   ⟨"ECALL", 0x0010007F#32, 0x00000073#32⟩, ⟨"EBREAK", 0x0010007F#32, 0x00100073#32⟩,
   ⟨"LOAD", 0x0000007F#32, 0x00000003#32⟩, ⟨"STORE", 0x0000007F#32, 0x00000023#32⟩,
   ⟨"FENCE", 0x0000007F#32, 0x0000000F#32⟩, ⟨"JALR", 0x0000007F#32, 0x00000067#32⟩]

/-- The row's `w AND mask = match`. -/
def OpcodeRow.selects (r : OpcodeRow) (w : Word) : Bool := w &&& r.mask == r.pattern

/-- The mnemonic of spec/opcode_table.json that an instruction belongs to. -/
def Instr.mnemonic : Instr → String
  | .add _ _ _ => "ADD"
  | .sub _ _ _ => "SUB"
  | .xor _ _ _ => "XOR"
  | .addi _ _ _ => "ADDI"
  | .slli _ _ _ => "SLLI"
  | .beq _ _ _ => "BEQ"
  | .bne _ _ _ => "BNE"
  | .blt _ _ _ => "BLT"
  | .bge _ _ _ => "BGE"
  | .bltu _ _ _ => "BLTU"
  | .bgeu _ _ _ => "BGEU"
  | .jal _ _ => "JAL"
  | .lui _ _ => "LUI"
  | .auipc _ _ => "AUIPC"
  | .ecall => "ECALL"
  | .ebreak => "EBREAK"
  | .load _ _ _ _ => "LOAD"
  | .store _ _ _ _ => "STORE"
  | .fence _ _ _ _ => "FENCE"
  | .jalr _ _ _ _ => "JALR"

/-! ## The encoder -/

/-- Layout R (R62). -/
def encodeR (funct7 : BitVec 7) (rs2 rs1 : RegIdx) (funct3 : BitVec 3) (rd : RegIdx) (opcode : BitVec 7) : Word :=
  funct7 ++ BitVec.ofFin (w := 5) rs2 ++ BitVec.ofFin (w := 5) rs1 ++ funct3 ++ BitVec.ofFin (w := 5) rd ++ opcode

/-- Layout I (R63). -/
def encodeI (imm : BitVec 12) (rs1 : RegIdx) (funct3 : BitVec 3) (rd : RegIdx) (opcode : BitVec 7) : Word :=
  imm ++ BitVec.ofFin (w := 5) rs1 ++ funct3 ++ BitVec.ofFin (w := 5) rd ++ opcode

/-- Layout S (R64). -/
def encodeS (imm : BitVec 12) (rs2 rs1 : RegIdx) (funct3 : BitVec 3) (opcode : BitVec 7) : Word :=
  imm.extractLsb' 5 7 ++ BitVec.ofFin (w := 5) rs2 ++ BitVec.ofFin (w := 5) rs1 ++ funct3 ++ imm.extractLsb' 0 5 ++
    opcode

/-- Layout B (R65); `raw` is `imm12 ‖ imm11 ‖ imm5_10 ‖ imm1_4` (R72). -/
def encodeB (raw : BitVec 12) (rs2 rs1 : RegIdx) (funct3 : BitVec 3) (opcode : BitVec 7) : Word :=
  raw.extractLsb' 11 1 ++ raw.extractLsb' 4 6 ++ BitVec.ofFin (w := 5) rs2 ++ BitVec.ofFin (w := 5) rs1 ++ funct3 ++
    raw.extractLsb' 0 4 ++ raw.extractLsb' 10 1 ++ opcode

/-- Layout U (R66). -/
def encodeU (imm20 : BitVec 20) (rd : RegIdx) (opcode : BitVec 7) : Word :=
  imm20 ++ BitVec.ofFin (w := 5) rd ++ opcode

/-- Layout J (R67); `raw` is `imm20 ‖ imm12_19 ‖ imm11 ‖ imm1_10` (R73). -/
def encodeJ (raw : BitVec 20) (rd : RegIdx) (opcode : BitVec 7) : Word :=
  raw.extractLsb' 19 1 ++ raw.extractLsb' 0 10 ++ raw.extractLsb' 10 1 ++ raw.extractLsb' 11 8 ++
    BitVec.ofFin (w := 5) rd ++ opcode

/-- The canonical word of an instruction: ignored bits are zero (30_encoding.md R76, R77). -/
def encode : Instr → Word
  | .add rd rs1 rs2 => encodeR 0b0000000#7 rs2 rs1 0b000#3 rd 0b0110011#7
  | .sub rd rs1 rs2 => encodeR 0b0100000#7 rs2 rs1 0b000#3 rd 0b0110011#7
  | .xor rd rs1 rs2 => encodeR 0b0000000#7 rs2 rs1 0b100#3 rd 0b0110011#7
  | .addi rd rs1 imm => encodeI imm rs1 0b000#3 rd 0b0010011#7
  | .slli rd rs1 shamt => encodeI (0b0000000#7 ++ shamt) rs1 0b001#3 rd 0b0010011#7
  | .beq rs1 rs2 raw => encodeB raw rs2 rs1 0b000#3 0b1100011#7
  | .bne rs1 rs2 raw => encodeB raw rs2 rs1 0b001#3 0b1100011#7
  | .blt rs1 rs2 raw => encodeB raw rs2 rs1 0b100#3 0b1100011#7
  | .bge rs1 rs2 raw => encodeB raw rs2 rs1 0b101#3 0b1100011#7
  | .bltu rs1 rs2 raw => encodeB raw rs2 rs1 0b110#3 0b1100011#7
  | .bgeu rs1 rs2 raw => encodeB raw rs2 rs1 0b111#3 0b1100011#7
  | .jal rd raw => encodeJ raw rd 0b1101111#7
  | .lui rd imm20 => encodeU imm20 rd 0b0110111#7
  | .auipc rd imm20 => encodeU imm20 rd 0b0010111#7
  | .ecall => 0x00000073#32
  | .ebreak => 0x00100073#32
  | .load imm rs1 funct3 rd => encodeI imm rs1 funct3 rd 0b0000011#7
  | .store imm rs2 rs1 funct3 => encodeS imm rs2 rs1 funct3 0b0100011#7
  | .fence imm rs1 funct3 rd => encodeI imm rs1 funct3 rd 0b0001111#7
  | .jalr imm rs1 funct3 rd => encodeI imm rs1 funct3 rd 0b1100111#7

end Sys2Proof
end

