-- ==== Sys2Proof/Config.lean ====
section
/-! DEFINITION. What the spec leaves to the platform: the layout constants a create request brings, and the free values
(no body, so nothing in Lean can evaluate them). The parameters to which the spec gives a value stand in
Sys2Proof/Machine/Params.lean, where a repair may change them. -/

namespace Sys2Proof

/-- The three layout constants that the configuration port carries at reset, each truncated to `XLEN` bits
(00_scope.md R8 `TEXT_BASE`, `STACK_TOP`, `DATA_BASE`; 70_reset_and_hazards.md R241). They are OPEN: a create request
takes them as its argument. -/
structure Layout where
  /-- `TEXT_BASE`, the text-segment base. -/
  textBase : Word
  /-- `STACK_TOP`, the stack top. -/
  stackTop : Word
  /-- `DATA_BASE`, the data-segment base. -/
  dataBase : Word
deriving DecidableEq, Repr

/-- The text the floating-point syscall prints at draw number `n`: an unspecified finite character string
(46_system.md R180, 93_implementation_defined.md U7). Free value, notes/assumptions/6.md. -/
opaque Config.freeText : Nat → List Byte

/-- How many of the characters read before a string syscall's memory fault were already printed, at draw number `n`
(46_system.md R181, 93_implementation_defined.md U8). Free value, notes/assumptions/7.md. -/
opaque Config.freeCount : Nat → Nat

/-- `CPU_DESCRIPTOR`, the read-only identification string: OPEN (60_exceptions.md R224). -/
opaque Config.cpuDescriptor : String

end Sys2Proof
end

