-- ==== Sys2Proof/Machine/Params.lean ====
section
/-! DEFINITION. The parameters to which the spec gives a value (00_scope.md R8; decisions of 92_eei_decisions.md), each
under the spec's own name, and the model's choice for the OPEN ones at `State.reset`. Every rule of the model reads a
parameter by name, so that a value can be changed here alone. UNVERIFIED, notes/assumptions/14.md. -/

namespace Sys2Proof.Machine

/-- `IBYTES`, the instruction width in bytes and default PC increment (R8). -/
def Params.ibytes : Word := 4#32

/-- `XBYTES = XLEN/8`, the bytes of one register (R8). -/
def Params.xbytes : Word := 4#32

/-- `CT_SCALE`, the factor from the concatenated branch or jump immediate to a byte offset (R8, D3, 90_conflicts.md C1). -/
def Params.ctScale : Nat := 2

/-- `FETCH_ALIGN_FAULT` (R8, D5): a fetch at a `pc` that is not a multiple of 4 is no fault. -/
def Params.fetchAlignFault : Bool := false

/-- `EBREAK_ADVANCES_PC` (R8, D7). -/
def Params.ebreakAdvancesPc : Bool := true

/-- `REG_SP` (R8, D12). -/
def Params.regSp : RegIdx := 2
/-- `REG_GP` (R8, D12). -/
def Params.regGp : RegIdx := 3
/-- `REG_A0` (R8, D12). -/
def Params.regA0 : RegIdx := 10
/-- `REG_A1` (R8, D12). -/
def Params.regA1 : RegIdx := 11

/-- `SYS_PRINT_INT`, decimal 1 (R8, D14). -/
def Params.sysPrintInt : Word := 1#32
/-- `SYS_PRINT_FLOAT`, decimal 10 (R8, D14). -/
def Params.sysPrintFloat : Word := 10#32
/-- `SYS_PRINT_STRING`, decimal 100 (R8, D14). -/
def Params.sysPrintString : Word := 100#32
/-- `SYS_PRINT_CHAR`, decimal 1011 (R8, D14). -/
def Params.sysPrintChar : Word := 1011#32

/-- The layout constants with which `State.reset` is created. The spec leaves them OPEN (R8, D13); these are the ones
of its test vector V-T1 (95_test_vectors.md). DESIGN CHOICE, notes/assumptions/1.md. -/
def Params.layout : Layout := { textBase := 0x1000#32, stackTop := 0x8000#32, dataBase := 0x2000#32 }

end Sys2Proof.Machine
end

