-- ==== Sys2Proof/Machine/Memory.lean ====
section
/-! DEFINITION. The external memory as the core sees it (20_memory.md R40, R41): the bytes of the one address space, the
regions that bound it, and the fallible reads of the memory access interface. -/

namespace Sys2Proof.Machine

/-! ## Contents -/

/-- The contents of the address space `0 .. 2^XLEN - 1`: (address, byte) pairs with addresses strictly rising, every
unlisted address reading as `unlistedByte` and no entry equal to it. -/
abbrev Memory := List Host.Cell

/-- What an unlisted address reads as. The spec gives memory no reset contents (70_reset_and_hazards.md R242, R244);
every contents can be listed, so only `State.reset` rests on this value. DESIGN CHOICE, notes/assumptions/2.md. -/
def Memory.unlistedByte : Byte := 0#8

/-- The canonical form, from a least address on. -/
def Memory.wfFrom (lo : Nat) : Memory → Bool
  | [] => true
  | (a, b) :: m => decide (lo ≤ a) && decide (a < addressSpace) && (b != Memory.unlistedByte) && Memory.wfFrom (a + 1) m

/-- The canonical form of a memory. -/
def Memory.wf (m : Memory) : Bool := Memory.wfFrom 0 m

/-- The byte at an address. -/
def Memory.readByte : Memory → Nat → Byte
  | [], _ => Memory.unlistedByte
  | (k, v) :: m, a => if k = a then v else Memory.readByte m a

/-- The list that begins with byte `b` at `a`, which lies below every address of `m`. -/
def Memory.put (a : Nat) (b : Byte) (m : Memory) : Memory := if b = Memory.unlistedByte then m else (a, b) :: m

/-- A memory with one byte changed, in canonical form. -/
def Memory.writeByte : Memory → Nat → Byte → Memory
  | [], a, b => Memory.put a b []
  | (k, v) :: m, a, b =>
      if a < k then Memory.put a b ((k, v) :: m)
      else if a = k then Memory.put a b m
      else (k, v) :: Memory.writeByte m a b

/-- A word stored at `a` in the byte order of 20_memory.md R43. No instruction stores (R42); this is how the owner of
the memory places a program's words. -/
def Memory.writeWord (m : Memory) (a w : Word) : Memory :=
  ((((m.writeByte a.toNat (byteOfWord w 0)).writeByte (a + 1#32).toNat (byteOfWord w 1)).writeByte (a + 2#32).toNat
    (byteOfWord w 2)).writeByte (a + 3#32).toNat (byteOfWord w 3))

/-! ## Regions (R40, R41) -/

/-- The three kinds of region the external configuration defines. The bounds check does not tell them apart (R47). -/
inductive RegionKind where
  | text
  | data
  | stack
deriving DecidableEq, Repr

/-- A configured region: the addresses `base .. base + size - 1`. DESIGN CHOICE, notes/assumptions/11.md. -/
structure Region where
  kind : RegionKind
  base : Nat
  size : Nat
deriving DecidableEq, Repr

/-- The address lies in the region. -/
def Region.covers (r : Region) (a : Nat) : Bool := decide (r.base ≤ a) && decide (a < r.base + r.size)

/-- The address lies in some configured region. -/
def inRegions (rs : List Region) (a : Nat) : Bool := rs.any (fun r => r.covers a)

/-- Each of the `n` bytes from `a` on lies in some configured region and inside the address space: a span does not
wrap to address 0 (R41, R49). -/
def spanInRange (rs : List Region) (a n : Nat) : Bool :=
  decide (a + n ≤ addressSpace) && (List.range n).all (fun k => inRegions rs (a + k))

/-! ## The memory access interface (R41) -/

/-- The answer of `FetchWord`. -/
inductive FetchAnswer where
  | word (w : Word)
  | outOfRange (a : Word)
deriving DecidableEq, Repr

/-- The answer of `MemRead(a, 1)`. -/
inductive ByteAnswer where
  | byte (b : Byte)
  | outOfRange (a : Word)
deriving DecidableEq, Repr

/-- `MemRead(a, 1)`. -/
def memReadByte (rs : List Region) (m : Memory) (a : Word) : ByteAnswer :=
  if spanInRange rs a.toNat 1 then .byte (m.readByte a.toNat) else .outOfRange a

/-- `FetchWord(a)`: `MemRead(a, 4)` with its bytes assembled (R41, R43); no alignment check unless the parameter
`FETCH_ALIGN_FAULT` asks for one (R44). -/
def memFetchWord (rs : List Region) (m : Memory) (a : Word) : FetchAnswer :=
  if Params.fetchAlignFault && a.toNat % 4 != 0 then .outOfRange a
  else if spanInRange rs a.toNat 4 then
    .word (wordOfBytes (m.readByte a.toNat) (m.readByte (a.toNat + 1)) (m.readByte (a.toNat + 2))
      (m.readByte (a.toNat + 3)))
  else .outOfRange a

/-- The regions that `State.reset` is configured with. Region sizes and end points are not in the spec (R40, R46); the
bases agree with `Params.layout`. DESIGN CHOICE, notes/assumptions/1.md. -/
def Params.regions : List Region :=
  [{ kind := .text, base := 0x1000, size := 0x1000 }, { kind := .data, base := 0x2000, size := 0x2000 },
   { kind := .stack, base := 0x4000, size := 0x4000 }]

end Sys2Proof.Machine
end

