-- ==== Sys2Proof/Machine/RegFile.lean ====
section
/-! DEFINITION. The register file (10_state.md R21 to R24): 32 registers of which register 0 is no storage at all. -/

namespace Sys2Proof.Machine

/-- The storage of `x[1] .. x[31]`, in order. Register 0 is hardwired to zero (R22), so it has no cell: that it reads
zero is a property of the file, and equal files are equal data (notes/assumptions/18.md). -/
structure RegFile where
  cells : Vector Word 31
deriving DecidableEq, Repr

/-- The read port: `x[i]`, with `x[0]` always 0 (R22). -/
def RegFile.read (f : RegFile) (i : RegIdx) : Word :=
  if h : i.val = 0 then 0#32 else f.cells[i.val - 1]'(by omega)

/-- The write port: `x[i] <- v`; a write to index 0 is discarded (R23). -/
def RegFile.write (f : RegFile) (i : RegIdx) (v : Word) : RegFile :=
  if h : i.val = 0 then f else { cells := f.cells.set (i.val - 1) v (by omega) }

/-- All registers zero. -/
def RegFile.zero : RegFile := { cells := Vector.replicate 31 0#32 }

/-- The registers right after a create request with these layout constants (R37): `sp = STACK_TOP - XBYTES`,
`gp = DATA_BASE`, all others zero. -/
def RegFile.created (l : Layout) : RegFile :=
  (RegFile.zero.write Params.regSp (l.stackTop - Params.xbytes)).write Params.regGp l.dataBase

end Sys2Proof.Machine
end

