-- ==== Sys2Proof/Machine/State.lean ====
section
/-! DEFINITION. The state of the machine: the core's three components (10_state.md R20) and, beside them, the external
parties a cycle talks to (00_scope.md R5; 40_decode_dispatch.md R95), held as plain data; the outcomes of a step; and
the state after reset. -/

namespace Sys2Proof.Machine

/-! ## Conditions (60_exceptions.md R205) -/

/-- The cause held by a stopped run latch: one of the fatal kinds, or Breakpoint (10_state.md R33). -/
inductive StopCause where
  | breakpoint
  | unrecognizedFormat
  | unmatchedOperation
  | notImplemented
  | memoryFault
deriving DecidableEq, Repr

/-- A fatal condition with its payload (R205, D26). -/
inductive Fatal where
  /-- The opcode and the raw word (R206). -/
  | unrecognizedFormat (opcode : BitVec 7) (word : Word)
  /-- The format tag and the key, as the masked word (R207). -/
  | unmatchedOperation (format : Format) (key : Word)
  /-- The format tag and the word (R208). -/
  | notImplemented (format : Format) (word : Word)
  /-- The faulting byte address (R209). -/
  | memoryFault (addr : Word)
deriving DecidableEq, Repr

/-- One record on the error channel (R205, R226): a fatal condition, or the one non-fatal kind. -/
inductive Diagnostic where
  | fatal (f : Fatal)
  /-- The number in `a0` (R210). -/
  | unknownSyscall (n : Word)
deriving DecidableEq, Repr

/-- The run latch (10_state.md R33). -/
inductive Run where
  | running
  | stopped (cause : StopCause)
deriving DecidableEq, Repr

/-! ## State -/

/-- The external parties of a cycle, which the core does not own (00_scope.md R4, R5, R6): the memory with its bounds,
and the two channels. DESIGN CHOICE, notes/assumptions/4.md. -/
structure Env where
  /-- The contents of memory (20_memory.md R40). -/
  mem : Memory
  /-- The configured text, data and stack bounds (20_memory.md R41). -/
  regions : List Region
  /-- The output channel: every character syscalls have printed, oldest first (46_system.md R185). A character is its
  8-bit code (notes/assumptions/9.md). -/
  output : List Byte
  /-- The error channel: every diagnostic record, oldest first (60_exceptions.md R226). -/
  errors : List Diagnostic
  /-- The model's own counter of free values drawn so far (notes/assumptions/6.md); no state of the spec. -/
  draws : Nat
deriving DecidableEq, Repr

/-- The whole state: the core's `pc`, `x[0..31]` and `run` (10_state.md R20), and its environment. -/
structure State where
  /-- The program counter (R26). -/
  pc : Word
  /-- The 32 general registers (R21). -/
  x : RegFile
  /-- The run latch (R33). -/
  run : Run
  /-- What lies outside the core. -/
  env : Env
deriving DecidableEq, Repr

/-! ## Outcomes -/

/-- Why the machine takes no step. Every condition of 60_exceptions.md R205 is a next state with the latch stopped and a
diagnostic emitted, never one of these. -/
inductive Fault where
  /-- Raised by `step` alone, on a core whose latch is already stopped: "no further cycle" until a reset (10_state.md
  R33, 93_implementation_defined.md U16, stuck). Safe; notes/assumptions/5.md. -/
  | stopped (cause : StopCause)
  /-- Raised by ECALL alone, in the string syscall, when all `2^XLEN` bytes lie in the regions and none is NUL, so that
  the handler's scan reaches no end (70_reset_and_hazards.md R254: the cycle does not terminate). Safe;
  notes/assumptions/10.md. -/
  | endlessStringScan
  /-- Raised by the host's ports alone, for a cycle or a destroy request where no core exists (70_reset_and_hazards.md
  R243). Safe; notes/assumptions/17.md. -/
  | noCore
deriving DecidableEq, Repr

/-- Why an instruction has no meaning. -/
inductive Refusal where
  /-- Raised by an arm of `exec` whose instruction has no meaning yet; in this model, by none. Safe. -/
  | notModelled (mnemonic : String)
deriving DecidableEq, Repr

/-! ## Reset (10_state.md R37, 70_reset_and_hazards.md R240 to R242) -/

/-- A create request: the core's three components take their reset values from the layout constants; memory and the
channels are not touched (R242). -/
def State.create (l : Layout) (e : Env) : State :=
  { pc := l.textBase, x := RegFile.created l, run := .running, env := e }

/-- The environment before anything has happened: no byte listed, the model's own region bounds, both channels empty.
DESIGN CHOICE, notes/assumptions/1.md, notes/assumptions/2.md and notes/assumptions/6.md. -/
def Env.initial : Env := { mem := [], regions := Params.regions, output := [], errors := [], draws := 0 }

/-- The machine right after reset, for the layout constants of `Params.layout`. -/
def State.reset : State := State.create Params.layout Env.initial

end Sys2Proof.Machine
end

