-- ==== Sys2Proof/Machine/Ops.lean ====
section
/-! DEFINITION. The operations every instruction shares: reading registers, the fetch, the commit of a cycle, raising a
fatal condition (the hardware's only trap entry), reporting a non-fatal one, and stopping. There is no return from a
trap (60_exceptions.md R217): `State.create` is the only way on from a stop. -/

namespace Sys2Proof.Machine

/-- What the machine answers. -/
abbrev Result := Host.Outcome State Fault Refusal

/-! ## Register and field updates -/

/-- `x[i]` in a state (00_scope.md R11). -/
def State.reg (s : State) (i : RegIdx) : Word := s.x.read i

/-- `x[i] <- v` (00_scope.md R11). -/
def State.setReg (s : State) (i : RegIdx) (v : Word) : State := { s with x := s.x.write i v }

/-- `pc <- t`. -/
def State.setPc (s : State) (t : Word) : State := { s with pc := t }

/-- `run <- r`. -/
def State.setRun (s : State) (r : Run) : State := { s with run := r }

/-- The environment replaced. -/
def State.setEnv (s : State) (e : Env) : State := { s with env := e }

/-- The instruction fetch at `pc` (20_memory.md R42). -/
def fetch (s : State) : FetchAnswer := memFetchWord s.env.regions s.env.mem s.pc

/-! ## The channels -/

/-- Characters appended to the output channel. -/
def Env.print (e : Env) (text : List Byte) : Env := { e with output := e.output ++ text }

/-- A record appended to the error channel (60_exceptions.md R226). -/
def Env.report (e : Env) (d : Diagnostic) : Env := { e with errors := e.errors ++ [d] }

/-- One free value used up. -/
def Env.drew (e : Env) : Env := { e with draws := e.draws + 1 }

/-! ## Commit (40_decode_dispatch.md R96 step 7, R98) -/

/-- What an execution unit yields: at most one register write and at most one absolute PC target. A unit never writes
`pc` itself (R98). -/
structure Yield where
  write : Option (RegIdx × Word) := none
  target : Option Word := none
deriving DecidableEq, Repr

/-- The dispatcher's register commit. -/
def commitWrite (w : Option (RegIdx × Word)) (s : State) : State :=
  match w with
  | none => s
  | some (rd, v) => s.setReg rd v

/-- The dispatcher's PC commit: the target if one was yielded, else `PC_before + 4`, modulo `2^XLEN` (10_state.md R27,
R28). -/
def nextPc (target : Option Word) (before : Word) : Word :=
  match target with
  | none => before + Params.ibytes
  | some t => t

/-- The commit of a non-fatal cycle. -/
def commit (y : Yield) (s : State) : State := (commitWrite y.write s).setPc (nextPc y.target s.pc)

/-! ## Conditions (60_exceptions.md R205) -/

/-- The latch value a fatal condition leaves. -/
def Fatal.cause : Fatal → StopCause
  | .unrecognizedFormat _ _ => .unrecognizedFormat
  | .unmatchedOperation _ _ => .unmatchedOperation
  | .notImplemented _ _ => .notImplemented
  | .memoryFault _ => .memoryFault

/-- The codes of D10. -/
def StopCause.code : StopCause → Nat
  | .breakpoint => 0
  | .unrecognizedFormat => 1
  | .unmatchedOperation => 2
  | .notImplemented => 3
  | .memoryFault => 4

/-- The code of a record (D10). -/
def Diagnostic.code : Diagnostic → Nat
  | .fatal f => f.cause.code
  | .unknownSyscall _ => 5

/-- `report <Kind>(info)`: a diagnostic without ending the cycle (00_scope.md R11). -/
def report (d : Diagnostic) (s : State) : State := s.setEnv (s.env.report d)

/-- `stop(cause)`: the latch (00_scope.md R11, 10_state.md R33). -/
def stop (c : StopCause) (s : State) : State := s.setRun (.stopped c)

/-- `raise <Kind>(info)` for a fatal kind, the trap entry of this hardware (60_exceptions.md R205, R214): the record goes
to the error channel and the latch stops; no general register and not `pc` is written, nothing is saved. -/
def raise (f : Fatal) (s : State) : State := stop f.cause (report (.fatal f) s)

/-- The Boolean a cycle returns to the driver loop, read off the state it leaves (40_decode_dispatch.md R99). -/
def continueFlag (s : State) : Bool := s.run == .running

end Sys2Proof.Machine
end

