-- ==== Sys2Proof/Machine/Operands.lean ====
section
/-! DEFINITION. The sign-extension unit and the assembly of immediates (40_decode_dispatch.md R90; 30_encoding.md R70 to
R75). -/

namespace Sys2Proof.Machine

/-- `sext_N(v)`: the low `N` bits of `v` as an `N`-bit two's-complement number, widened to `XLEN` bits (R90). -/
def sext (n : Nat) {m : Nat} (v : BitVec m) : Word := (v.setWidth n).signExtend 32

/-- `zext_N(v)`: the low `N` bits of `v` widened with zeros (00_scope.md R11). -/
def zext (n : Nat) {m : Nat} (v : BitVec m) : Word := (v.setWidth n).setWidth 32

/-- `imm_I = sext_12(w[31:20])` (R70). -/
def immI (imm : BitVec 12) : Word := sext 12 imm

/-- `imm_S = sext_12(w[31:25] ‖ w[11:7])` (R75); the store placeholder does not use it. -/
def immS (imm : BitVec 12) : Word := sext 12 imm

/-- `imm_U = w[31:12] ‖ 0^12` (R74). -/
def immU (imm20 : BitVec 20) : Word := imm20 ++ 0#12

/-- `offset_B = sext_12(raw_B) * CT_SCALE` (R72). -/
def branchOffset (raw : BitVec 12) : Word := sext 12 raw * BitVec.ofNat 32 Params.ctScale

/-- `offset_J = sext_20(raw_J) * CT_SCALE` (R73). -/
def jumpOffset (raw : BitVec 20) : Word := sext 20 raw * BitVec.ofNat 32 Params.ctScale

/-- `v << shamt` with an unsigned shift amount of five bits (R71, 00_scope.md R10). -/
def shiftLeft (v : Word) (shamt : BitVec 5) : Word := v <<< shamt.toNat

end Sys2Proof.Machine
end

