-- ==== Sys2Proof/Machine/Flags.lean ====
section
/-! DEFINITION. The hardware has no flags (10_state.md R30): the six branch conditions are computed directly from two
register values, at full register width (43_branch.md R141 to R147). -/

namespace Sys2Proof.Machine

/-- EQ, on bit patterns (R141). -/
def condEq (a b : Word) : Bool := a == b
/-- NE, on bit patterns (R142). -/
def condNe (a b : Word) : Bool := a != b
/-- LT, both read in two's complement over all `XLEN` bits (R143, R147). -/
def condLt (a b : Word) : Bool := decide (a.toInt < b.toInt)
/-- GE, both read in two's complement over all `XLEN` bits (R144, R147). -/
def condGe (a b : Word) : Bool := decide (a.toInt ≥ b.toInt)
/-- LTU, both read as unsigned numbers (R145). -/
def condLtu (a b : Word) : Bool := decide (a.toNat < b.toNat)
/-- GEU, both read as unsigned numbers (R146). -/
def condGeu (a b : Word) : Bool := decide (a.toNat ≥ b.toNat)

end Sys2Proof.Machine
end

