-- ==== Sys2Proof/Machine/Branch.lean ====
section
/-! DEFINITION. The branch unit (43_branch.md). -/

namespace Sys2Proof.Machine

/-- The common part (R140): a taken branch yields the target `PC_before + offset`, a branch not taken yields nothing and
receives the dispatcher's `+4`. -/
def branchIf (taken : Bool) (raw : BitVec 12) (s : State) : Result :=
  .next (commit { target := if taken then some (s.pc + branchOffset raw) else none } s)

/-- R141 -/
def execBeq (rs1 rs2 : RegIdx) (raw : BitVec 12) (s : State) : Result := branchIf (condEq (s.reg rs1) (s.reg rs2)) raw s
/-- R142 -/
def execBne (rs1 rs2 : RegIdx) (raw : BitVec 12) (s : State) : Result := branchIf (condNe (s.reg rs1) (s.reg rs2)) raw s
/-- R143 -/
def execBlt (rs1 rs2 : RegIdx) (raw : BitVec 12) (s : State) : Result := branchIf (condLt (s.reg rs1) (s.reg rs2)) raw s
/-- R144 -/
def execBge (rs1 rs2 : RegIdx) (raw : BitVec 12) (s : State) : Result := branchIf (condGe (s.reg rs1) (s.reg rs2)) raw s
/-- R145 -/
def execBltu (rs1 rs2 : RegIdx) (raw : BitVec 12) (s : State) : Result :=
  branchIf (condLtu (s.reg rs1) (s.reg rs2)) raw s
/-- R146 -/
def execBgeu (rs1 rs2 : RegIdx) (raw : BitVec 12) (s : State) : Result :=
  branchIf (condGeu (s.reg rs1) (s.reg rs2)) raw s

end Sys2Proof.Machine
end

