-- ==== Sys2Proof/Machine/Alu.lean ====
section
/-! DEFINITION. The register-register ALU: ADD, SUB, XOR (41_reg_reg_alu.md). -/

namespace Sys2Proof.Machine

/-- A cycle whose unit yields one register write. -/
def writeRd (rd : RegIdx) (v : Word) (s : State) : Result := .next (commit { write := some (rd, v) } s)

/-- R120: `x[rd] <- x[rs1] + x[rs2]`, modulo `2^XLEN`. -/
def execAdd (rd rs1 rs2 : RegIdx) (s : State) : Result := writeRd rd (s.reg rs1 + s.reg rs2) s

/-- R121: `x[rd] <- x[rs1] - x[rs2]`, modulo `2^XLEN`. -/
def execSub (rd rs1 rs2 : RegIdx) (s : State) : Result := writeRd rd (s.reg rs1 - s.reg rs2) s

/-- R122: `x[rd] <- x[rs1] ^ x[rs2]`. -/
def execXor (rd rs1 rs2 : RegIdx) (s : State) : Result := writeRd rd (s.reg rs1 ^^^ s.reg rs2) s

end Sys2Proof.Machine
end

