-- ==== Sys2Proof/Machine/ImmAlu.lean ====
section
/-! DEFINITION. The immediate ALU/shift unit: ADDI, SLLI (42_imm_alu.md). -/

namespace Sys2Proof.Machine

/-- R130: `x[rd] <- x[rs1] + sext_12(imm)`. -/
def execAddi (rd rs1 : RegIdx) (imm : BitVec 12) (s : State) : Result := writeRd rd (s.reg rs1 + immI imm) s

/-- R131: `x[rd] <- x[rs1] << shamt`. -/
def execSlli (rd rs1 : RegIdx) (shamt : BitVec 5) (s : State) : Result := writeRd rd (shiftLeft (s.reg rs1) shamt) s

end Sys2Proof.Machine
end

