-- ==== Sys2Proof/Machine/Jump.lean ====
section
/-! DEFINITION. The jump-and-link unit (44_jump.md). -/

namespace Sys2Proof.Machine

/-- R155: the link `PC_before + 4` into `x[rd]`, and the absolute target `PC_before + offset`. -/
def execJal (rd : RegIdx) (raw : BitVec 20) (s : State) : Result :=
  .next (commit { write := some (rd, s.pc + Params.ibytes), target := some (s.pc + jumpOffset raw) } s)

end Sys2Proof.Machine
end

