-- ==== Sys2Proof/Machine/Placeholder.lean ====
section
/-! DEFINITION. The four placeholder formats (47_placeholders.md): every word of them raises the fatal
`NotImplemented(format, word)`. The word is the instruction's own encoding, which keeps all its bits
(notes/assumptions/12.md). -/

namespace Sys2Proof.Machine

/-- `raise NotImplemented(format, w)` (60_exceptions.md R208). -/
def raiseNotImplemented (f : Format) (w : Word) (s : State) : Result := .next (raise (.notImplemented f w) s)

/-- R195; no memory access other than the fetch. -/
def execLoad (imm : BitVec 12) (rs1 : RegIdx) (funct3 : BitVec 3) (rd : RegIdx) (s : State) : Result :=
  raiseNotImplemented .load (encode (.load imm rs1 funct3 rd)) s

/-- R196; memory is never written. -/
def execStore (imm : BitVec 12) (rs2 rs1 : RegIdx) (funct3 : BitVec 3) (s : State) : Result :=
  raiseNotImplemented .store (encode (.store imm rs2 rs1 funct3)) s

/-- R197; orders nothing, and is no no-operation. -/
def execFence (imm : BitVec 12) (rs1 : RegIdx) (funct3 : BitVec 3) (rd : RegIdx) (s : State) : Result :=
  raiseNotImplemented .fence (encode (.fence imm rs1 funct3 rd)) s

/-- R198; no link is written. -/
def execJalr (imm : BitVec 12) (rs1 : RegIdx) (funct3 : BitVec 3) (rd : RegIdx) (s : State) : Result :=
  raiseNotImplemented .jumpAndLinkRegister (encode (.jalr imm rs1 funct3 rd)) s

end Sys2Proof.Machine
end

