-- ==== Sys2Proof/Machine/Syscall.lean ====
section
/-! DEFINITION. The syscall trap handler, an environment party, as the contract of the syscall port (46_system.md R178
to R185). -/

namespace Sys2Proof.Machine

/-- The handler's answer (R178). -/
inductive Answer where
  /-- Done; the optional value is written back to `a1` (R184). No service of this hardware gives one (D15,
  notes/assumptions/13.md). -/
  | ok (v : Option Word)
  | unknown
  | memFault (addr : Word)
deriving DecidableEq, Repr

/-- How a request ends: an answer, with the environment after it, or a string scan that reaches no end. -/
inductive Service where
  | answered (a : Answer) (e : Env)
  | endless
deriving DecidableEq, Repr

/-! ## Print-integer (R179, D21) -/

/-- The code of a decimal digit. PRESUMED, notes/assumptions/9.md. -/
def digitCode (d : Nat) : Byte := BitVec.ofNat 8 (48 + d)

/-- Minimal decimal digits of a number below `10 ^ (fuel + 1)`, most significant first. -/
def decimalDigits : Nat → Nat → List Byte
  | 0, n => [digitCode (n % 10)]
  | fuel + 1, n => if n < 10 then [digitCode n] else decimalDigits fuel (n / 10) ++ [digitCode (n % 10)]

/-- The decimal representation of `signed(v)`: a leading `-` (code 45) for negatives, no padding, no newline. -/
def decimalText (v : Word) : List Byte :=
  if v.toInt < 0 then 45#8 :: decimalDigits 9 v.toInt.natAbs else decimalDigits 9 v.toInt.natAbs

/-! ## Print-string (R181) -/

/-- How the handler's scan ends, with the characters read so far. -/
inductive Scan where
  | nul (text : List Byte)
  | outOfRange (text : List Byte) (addr : Word)
  | endless
deriving DecidableEq, Repr

/-- One more character in front of a scan. -/
def Scan.cons (b : Byte) : Scan → Scan
  | .nul t => .nul (b :: t)
  | .outOfRange t a => .outOfRange (b :: t) a
  | .endless => .endless

/-- Read bytes at `a`, `a + 1`, ... until a NUL or an address out of range. Addresses are `XLEN`-bit values, so `+ 1` is
modulo `2^XLEN` (00_scope.md R10; DEDUCED, notes/assumptions/8.md). -/
def scanString (rs : List Region) (m : Memory) : Nat → Word → Scan
  | 0, _ => .endless
  | fuel + 1, a =>
    match memReadByte rs m a with
    | .outOfRange ad => .outOfRange [] ad
    | .byte b => if b = 0#8 then .nul [] else (scanString rs m fuel (a + 1#32)).cons b

/-! ## The handler -/

/-- `Syscall(n, a)` (R178): the four print services and the unmatched case. -/
def syscall (n a : Word) (e : Env) : Service :=
  if n = Params.sysPrintInt then .answered (.ok none) (e.print (decimalText a))
  else if n = Params.sysPrintFloat then .answered (.ok none) (e.print (Config.freeText e.draws)).drew
  else if n = Params.sysPrintString then
    -- after `2^XLEN` bytes every address has been read
    match scanString e.regions e.mem addressSpace a with
    | .nul text => .answered (.ok none) (e.print text)
    | .outOfRange text ad => .answered (.memFault ad) (e.print (text.take (Config.freeCount e.draws))).drew
    | .endless => .endless
  else if n = Params.sysPrintChar then .answered (.ok none) (e.print [a.setWidth 8])
  else .answered .unknown e

end Sys2Proof.Machine
end

