-- ==== Sys2Proof/Machine/System.lean ====
section
/-! DEFINITION. The system unit: ECALL, EBREAK (46_system.md R175, R176). -/

namespace Sys2Proof.Machine

/-- What the core does with the handler's answer (R175): a memory fault is fatal and nothing is written; an unknown
number is reported and the cycle completes; otherwise the optional value goes to `a1`. -/
def afterSyscall (n : Word) : Service → State → Result
  | .endless, _ => .fault .endlessStringScan
  | .answered (.ok none) e, s => .next (commit {} (s.setEnv e))
  | .answered (.ok (some v)) e, s => .next (commit { write := some (Params.regA1, v) } (s.setEnv e))
  | .answered .unknown e, s => .next (commit {} (report (.unknownSyscall n) (s.setEnv e)))
  | .answered (.memFault ad) e, s => .next (raise (.memoryFault ad) (s.setEnv e))

/-- R175: the number in `a0` and the operand in `a1` go to the handler within the cycle. -/
def execEcall (s : State) : Result :=
  afterSyscall (s.reg Params.regA0) (syscall (s.reg Params.regA0) (s.reg Params.regA1) s.env) s

/-- R176: the terminal request; no diagnostic. -/
def execEbreak (s : State) : Result :=
  .next (stop .breakpoint (if Params.ebreakAdvancesPc then commit {} s else s))

end Sys2Proof.Machine
end

