-- ==== Sys2Proof/Machine/UpperImm.lean ====
section
/-! DEFINITION. The upper-immediate units: LUI, AUIPC (45_upper_imm.md). -/

namespace Sys2Proof.Machine

/-- R165: `x[rd] <- imm20 ‖ 0^12`. -/
def execLui (rd : RegIdx) (imm20 : BitVec 20) (s : State) : Result := writeRd rd (immU imm20) s

/-- R166: `x[rd] <- (imm20 ‖ 0^12) + PC_before`, modulo `2^XLEN`. -/
def execAuipc (rd : RegIdx) (imm20 : BitVec 20) (s : State) : Result := writeRd rd (immU imm20 + s.pc) s

end Sys2Proof.Machine
end

