-- ==== Sys2Proof/Machine/Dispatch.lean ====
section
/-! DEFINITION. The meaning of every instruction of spec/opcode_table.json, one arm each (40_decode_dispatch.md R96
step 6). -/

namespace Sys2Proof.Machine

def exec (i : Instr) (s : State) : Host.Outcome State Fault Refusal :=
  match i with
  | .add rd rs1 rs2 => Sys2Proof.Machine.execAdd rd rs1 rs2 s
  | .sub rd rs1 rs2 => Sys2Proof.Machine.execSub rd rs1 rs2 s
  | .xor rd rs1 rs2 => Sys2Proof.Machine.execXor rd rs1 rs2 s
  | .addi rd rs1 imm => Sys2Proof.Machine.execAddi rd rs1 imm s
  | .slli rd rs1 shamt => Sys2Proof.Machine.execSlli rd rs1 shamt s
  | .beq rs1 rs2 raw => Sys2Proof.Machine.execBeq rs1 rs2 raw s
  | .bne rs1 rs2 raw => Sys2Proof.Machine.execBne rs1 rs2 raw s
  | .blt rs1 rs2 raw => Sys2Proof.Machine.execBlt rs1 rs2 raw s
  | .bge rs1 rs2 raw => Sys2Proof.Machine.execBge rs1 rs2 raw s
  | .bltu rs1 rs2 raw => Sys2Proof.Machine.execBltu rs1 rs2 raw s
  | .bgeu rs1 rs2 raw => Sys2Proof.Machine.execBgeu rs1 rs2 raw s
  | .jal rd raw => Sys2Proof.Machine.execJal rd raw s
  | .lui rd imm20 => Sys2Proof.Machine.execLui rd imm20 s
  | .auipc rd imm20 => Sys2Proof.Machine.execAuipc rd imm20 s
  | .ecall => Sys2Proof.Machine.execEcall s
  | .ebreak => Sys2Proof.Machine.execEbreak s
  | .load imm rs1 funct3 rd => Sys2Proof.Machine.execLoad imm rs1 funct3 rd s
  | .store imm rs2 rs1 funct3 => Sys2Proof.Machine.execStore imm rs2 rs1 funct3 s
  | .fence imm rs1 funct3 rd => Sys2Proof.Machine.execFence imm rs1 funct3 rd s
  | .jalr imm rs1 funct3 rd => Sys2Proof.Machine.execJalr imm rs1 funct3 rd s

end Sys2Proof.Machine
end

