-- ==== Sys2Proof/Machine/Cycle.lean ====
section
/-! DEFINITION. One cycle (40_decode_dispatch.md R96): what follows from the fetch's answer and from the router's, in the
priority of 60_exceptions.md R213; and how a program's word comes to lie where the next cycle fetches. -/

namespace Sys2Proof.Machine

/-- Steps 3 to 8: what the dispatcher does with the router's answer. -/
def dispatch : Routed → State → Result
  | .unrecognized opcode w, s => .next (raise (.unrecognizedFormat opcode w) s)
  | .unmatched f key, s => .next (raise (.unmatchedOperation f key) s)
  | .instr i, s => exec i s

/-- Steps 1 to 8 for a running core: the fetch comes first, so its fault hides every other condition. -/
def cycle (s : State) : Result :=
  match fetch s with
  | .outOfRange a => .next (raise (.memoryFault a) s)
  | .word w => dispatch (route w) s

/-- The regions with the four bytes at `a` made readable, unchanged if they are already. -/
def regionsCovering (rs : List Region) (a : Word) : List Region :=
  if spanInRange rs a.toNat 4 then rs else rs ++ [{ kind := .text, base := a.toNat, size := 4 }]

/-- The load of one word from outside the machine (70_reset_and_hazards.md R244, R245): at `pc`, in memory that answers
there, on a core that runs. -/
def placeAtPc (w : Word) (s : State) : State :=
  (s.setEnv { s.env with mem := s.env.mem.writeWord s.pc w, regions := regionsCovering s.env.regions s.pc }).setRun
    .running

end Sys2Proof.Machine
end

