-- ==== Sys2Proof/Machine/Step.lean ====
section
/-! DEFINITION. The step: one cycle, performed only when the latch is running (10_state.md R33). -/

namespace Sys2Proof.Machine

/-- One requested cycle. A stopped core performs none until the next reset (R33; 93_implementation_defined.md U16). -/
def step (s : State) : Host.Outcome State Fault Refusal :=
  match s.run with
  | .running => cycle s
  | .stopped c => .fault (.stopped c)

/-- `s` with the instruction whose bits are `w` where the next step fetches. -/
def State.withFetchWord (s : State) (nbits w : Nat) : State := placeAtPc (BitVec.ofNat 32 (w % 2 ^ nbits)) s

end Sys2Proof.Machine
end

