-- ==== Sys2Proof/Machine/Ports.lean ====
section
/-! DEFINITION. The abstract ports of the core as the host and the owner of the memory use them (40_decode_dispatch.md
R95, R102; 70_reset_and_hazards.md R240 to R245): create, one cycle, destroy, and changes of memory between cycles
(notes/assumptions/17.md, notes/assumptions/19.md). -/

namespace Sys2Proof.Machine

/-- A core that exists, or the environment alone before a create and after a destroy (R243). -/
inductive Platform where
  | absent (e : Env)
  | present (s : State)
deriving DecidableEq, Repr

/-- One request between cycles. Making none is also allowed and changes nothing (R102). -/
inductive Request where
  /-- The reset port: a new core with these constants, in any state (R240). -/
  | create (l : Layout)
  /-- The step port. -/
  | cycle
  /-- The teardown port (R243). -/
  | destroy
  /-- The owner of the memory changes one byte (20_memory.md R53, R245). -/
  | writeMemory (a : Word) (b : Byte)
  /-- The memory subsystem is given its bounds (R244). -/
  | configureMemory (rs : List Region)
deriving DecidableEq, Repr

/-- The environment of a platform. -/
def Platform.env : Platform → Env
  | .absent e => e
  | .present s => s.env

/-- The same platform with its environment replaced. -/
def Platform.setEnv : Platform → Env → Platform
  | .absent _, e => .absent e
  | .present s, e => .present (s.setEnv e)

/-- One request answered. -/
def serve (r : Request) (p : Platform) : Host.Outcome Platform Fault Refusal :=
  match r with
  | .create l => .next (.present (State.create l p.env))
  | .cycle =>
    match p with
    | .absent _ => .fault .noCore
    | .present s =>
      match step s with
      | .next t => .next (.present t)
      | .fault f => .fault f
      | .refused q => .refused q
  | .destroy =>
    match p with
    | .absent _ => .fault .noCore
    | .present s => .next (.absent s.env)
  | .writeMemory a b => .next (p.setEnv { p.env with mem := p.env.mem.writeByte a.toNat b })
  | .configureMemory rs => .next (p.setEnv { p.env with regions := rs })

/-- The descriptor port: constant, read by no instruction (60_exceptions.md R224). -/
def descriptor (_ : State) : String := Config.cpuDescriptor

end Sys2Proof.Machine
end

