-- ==== Sys2Proof/Safety.lean ====
section
/-! DEFINITION. What a run's end means, which diagnostic records are justified, and the invariant every step keeps. -/

namespace Sys2Proof.Machine

/-- The run ended by EBREAK, the only normal end (46_system.md R176). -/
def EndedWell (s : State) : Prop := s.run = .stopped .breakpoint

/-- The run ended in a fatal condition: never a good final state (93_implementation_defined.md section 1). -/
def EndedInError (s : State) : Prop := ∃ c, s.run = .stopped c ∧ c ≠ .breakpoint

/-- The four formats without an operation (30_encoding.md R68). -/
def isPlaceholder : Format → Bool
  | .load => true
  | .store => true
  | .fence => true
  | .jumpAndLinkRegister => true
  | .registerRegister => false
  | .branch => false
  | .immediate => false
  | .loadUpperImmediate => false
  | .addUpperImmediateToPc => false
  | .jumpAndLink => false
  | .system => false

/-- The syscall numbers the handler serves (46_system.md R179 to R182). -/
def supportedSyscalls : List Word :=
  [Params.sysPrintInt, Params.sysPrintFloat, Params.sysPrintString, Params.sysPrintChar]

/-- A record says what its kind means (60_exceptions.md R206 to R210): the opcode is unrecognised and is the word's own;
the key alone routes to the same unmatched pair; the word belongs to the placeholder format; the four bytes from the
address are not all readable; the number is not supported. -/
def Diagnostic.justified (rs : List Region) : Diagnostic → Bool
  | .fatal (.unrecognizedFormat opcode w) => route w == .unrecognized opcode w
  | .fatal (.unmatchedOperation f key) => route key == .unmatched f key
  | .fatal (.notImplemented f w) => isPlaceholder f && formatOf (opcodeOf w) == some f
  | .fatal (.memoryFault a) => !spanInRange rs a.toNat 4
  | .unknownSyscall n => !supportedSyscalls.contains n

/-- The latch and the error channel agree: a fatal stop's own record is the last one (60_exceptions.md R205). -/
def latchAgrees (r : Run) (errors : List Diagnostic) : Bool :=
  match r with
  | .running => true
  | .stopped .breakpoint => true
  | .stopped c =>
    match errors.getLast? with
    | some (.fatal f) => f.cause == c
    | some (.unknownSyscall _) => false
    | none => false

/-- The invariant of the machine: memory is canonical, every record on the error channel is justified, and a fatal stop
carries its diagnostic. -/
structure Inv (s : State) : Prop where
  memoryCanonical : s.env.mem.wf = true
  recordsJustified : ∀ d ∈ s.env.errors, d.justified s.env.regions = true
  latchAgrees : latchAgrees s.run s.env.errors = true

end Sys2Proof.Machine
end

