-- ==== Sys2Proof/Certificates/Slice0/Obligations.lean ====
section
/-! DEFINITION. The statements for the provers. The vocabulary they share stands first, under Sys2Proof.Claims; then one
definition per statement, its docstring naming the rule of spec/ it formalises. -/

open Sys2Proof Sys2Proof.Machine

namespace Sys2Proof.Claims

/-! ## Vocabulary -/

/-- The byte of memory at an address. -/
def byteAt (s : State) (a : Nat) : Byte := s.env.mem.readByte a

/-- The address lies in some configured region (20_memory.md R41). -/
def Mapped (s : State) (a : Nat) : Prop := ∃ r ∈ s.env.regions, r.base ≤ a ∧ a < r.base + r.size

/-- Every register reads as before. -/
def SameRegs (s t : State) : Prop := ∀ r : RegIdx, t.reg r = s.reg r

/-- Memory and its bounds are as before, byte for byte. -/
def SameMemory (s t : State) : Prop :=
  (∀ a : Nat, byteAt t a = byteAt s a) ∧ t.env.mem = s.env.mem ∧ t.env.regions = s.env.regions

/-- The latch, memory, both channels and the draw counter are as before: the frame of an instruction that only computes. -/
def SameRest (s t : State) : Prop := t.run = s.run ∧ SameMemory s t ∧ t.env = s.env

/-- `x[rd] <- v` and no other register: a register other than `rd` keeps its value, `x[rd]` is `v` unless `rd` is 0, and
`x[0]` reads 0 (10_state.md R22, R23). -/
def WroteReg (s t : State) (rd : RegIdx) (v : Word) : Prop :=
  (rd ≠ 0 → t.reg rd = v) ∧ t.reg 0 = 0#32 ∧ ∀ r : RegIdx, r ≠ rd → t.reg r = s.reg r

/-- The stop of a fatal condition (60_exceptions.md R205): nothing changes but the latch and one record on the error
channel, and the cycle returns `continue = false`. -/
def FatalStop (s t : State) (f : Fatal) : Prop :=
  t.pc = s.pc ∧ SameRegs s t ∧ SameMemory s t ∧ t.run = .stopped f.cause ∧
    t.env.errors = s.env.errors ++ [.fatal f] ∧ t.env.output = s.env.output ∧ t.env.draws = s.env.draws ∧
    continueFlag t = false

/-- `raw_B` of a word: `w[31] ‖ w[7] ‖ w[30:25] ‖ w[11:8]` (30_encoding.md R72). -/
def rawB (w : Word) : BitVec 12 := w.extractLsb' 31 1 ++ w.extractLsb' 7 1 ++ w.extractLsb' 25 6 ++ w.extractLsb' 8 4

/-- `raw_J` of a word: `w[31] ‖ w[19:12] ‖ w[20] ‖ w[30:21]` (30_encoding.md R73). -/
def rawJ (w : Word) : BitVec 20 :=
  w.extractLsb' 31 1 ++ w.extractLsb' 12 8 ++ w.extractLsb' 20 1 ++ w.extractLsb' 21 10

/-- The five bits of a word from bit `lo` on, as a register index (30_encoding.md R61). -/
def regField (w : Word) (lo : Nat) : RegIdx := (w.extractLsb' lo 5).toFin

/-- What a branch does (43_branch.md R140): the target if taken, else `+4`; nothing else changes. -/
def Branched (s t : State) (taken : Prop) (raw : BitVec 12) : Prop :=
  (taken → t.pc = s.pc + (raw ++ 0#1).signExtend 32) ∧ (¬taken → t.pc = s.pc + 4#32) ∧ SameRegs s t ∧ SameRest s t

/-- The destination register an instruction names (10_state.md R25, column "writes"). -/
def dest : Instr → Option RegIdx
  | .add rd _ _ => some rd
  | .sub rd _ _ => some rd
  | .xor rd _ _ => some rd
  | .addi rd _ _ => some rd
  | .slli rd _ _ => some rd
  | .beq _ _ _ => none
  | .bne _ _ _ => none
  | .blt _ _ _ => none
  | .bge _ _ _ => none
  | .bltu _ _ _ => none
  | .bgeu _ _ _ => none
  | .jal rd _ => some rd
  | .lui rd _ => some rd
  | .auipc rd _ => some rd
  | .ecall => none
  | .ebreak => none
  | .load _ _ _ _ => none
  | .store _ _ _ _ => none
  | .fence _ _ _ _ => none
  | .jalr _ _ _ _ => none

/-- The general registers an instruction reads (10_state.md R25, column "reads"). -/
def sources : Instr → List RegIdx
  | .add _ rs1 rs2 => [rs1, rs2]
  | .sub _ rs1 rs2 => [rs1, rs2]
  | .xor _ rs1 rs2 => [rs1, rs2]
  | .addi _ rs1 _ => [rs1]
  | .slli _ rs1 _ => [rs1]
  | .beq rs1 rs2 _ => [rs1, rs2]
  | .bne rs1 rs2 _ => [rs1, rs2]
  | .blt rs1 rs2 _ => [rs1, rs2]
  | .bge rs1 rs2 _ => [rs1, rs2]
  | .bltu rs1 rs2 _ => [rs1, rs2]
  | .bgeu rs1 rs2 _ => [rs1, rs2]
  | .jal _ _ => []
  | .lui _ _ => []
  | .auipc _ _ => []
  | .ecall => [10, 11]
  | .ebreak => []
  | .load _ _ _ _ => []
  | .store _ _ _ _ => []
  | .fence _ _ _ _ => []
  | .jalr _ _ _ _ => []

/-- The byte offset of a control transfer the instruction makes in this state, if it makes one (10_state.md R27 (b)). -/
def transferOffset (s : State) : Instr → Option Word
  | .beq rs1 rs2 raw => if s.reg rs1 = s.reg rs2 then some ((raw ++ 0#1).signExtend 32) else none
  | .bne rs1 rs2 raw => if s.reg rs1 ≠ s.reg rs2 then some ((raw ++ 0#1).signExtend 32) else none
  | .blt rs1 rs2 raw => if (s.reg rs1).toInt < (s.reg rs2).toInt then some ((raw ++ 0#1).signExtend 32) else none
  | .bge rs1 rs2 raw => if (s.reg rs1).toInt ≥ (s.reg rs2).toInt then some ((raw ++ 0#1).signExtend 32) else none
  | .bltu rs1 rs2 raw => if (s.reg rs1).toNat < (s.reg rs2).toNat then some ((raw ++ 0#1).signExtend 32) else none
  | .bgeu rs1 rs2 raw => if (s.reg rs1).toNat ≥ (s.reg rs2).toNat then some ((raw ++ 0#1).signExtend 32) else none
  | .jal _ raw => some ((raw ++ 0#1).signExtend 32)
  | .add _ _ _ => none
  | .sub _ _ _ => none
  | .xor _ _ _ => none
  | .addi _ _ _ => none
  | .slli _ _ _ => none
  | .lui _ _ => none
  | .auipc _ _ => none
  | .ecall => none
  | .ebreak => none
  | .load _ _ _ _ => none
  | .store _ _ _ _ => none
  | .fence _ _ _ _ => none
  | .jalr _ _ _ _ => none

/-- The bits of a word that its instruction keeps: all but those 30_encoding.md R77 calls ignored. The placeholders keep
theirs, for their diagnostic, by the model's choice (notes/assumptions/12.md). -/
def keptBits : Instr → Word
  | .slli _ _ _ => 0x01FFFFFF#32
  | .ecall => 0x0010007F#32
  | .ebreak => 0x0010007F#32
  | .add _ _ _ => BitVec.allOnes 32
  | .sub _ _ _ => BitVec.allOnes 32
  | .xor _ _ _ => BitVec.allOnes 32
  | .addi _ _ _ => BitVec.allOnes 32
  | .beq _ _ _ => BitVec.allOnes 32
  | .bne _ _ _ => BitVec.allOnes 32
  | .blt _ _ _ => BitVec.allOnes 32
  | .bge _ _ _ => BitVec.allOnes 32
  | .bltu _ _ _ => BitVec.allOnes 32
  | .bgeu _ _ _ => BitVec.allOnes 32
  | .jal _ _ => BitVec.allOnes 32
  | .lui _ _ => BitVec.allOnes 32
  | .auipc _ _ => BitVec.allOnes 32
  | .load _ _ _ _ => BitVec.allOnes 32
  | .store _ _ _ _ => BitVec.allOnes 32
  | .fence _ _ _ _ => BitVec.allOnes 32
  | .jalr _ _ _ _ => BitVec.allOnes 32

/-- The cycle of a running core fetches the word `w`. -/
def Fetches (s : State) (w : Word) : Prop := s.run = .running ∧ fetch s = .word w

/-- A running core fetches a word that the router reads as `i`. -/
def Runs (s : State) (i : Instr) : Prop := ∃ w, Fetches s w ∧ route w = .instr i

/-- An ECALL that ends as a successful one: `text` is printed, the cycle completes, nothing else changes but possibly the
draw counter. -/
def Printed (s t : State) (text : List Byte) : Prop :=
  t.pc = s.pc + 4#32 ∧ SameRegs s t ∧ t.run = s.run ∧ SameMemory s t ∧ t.env.errors = s.env.errors ∧
    t.env.output = s.env.output ++ text

/-- `t` and `u`, two environments after the same instruction over the environment `e`, agree in all that no free value
decides: in memory, its bounds, the error channel and the draw counter, and in the output channel if nothing was drawn. -/
def SameEnv (e t u : Env) : Prop :=
  u.mem = t.mem ∧ u.regions = t.regions ∧ u.errors = t.errors ∧ u.draws = t.draws ∧
    (t.draws = e.draws → u.output = t.output)

end Sys2Proof.Claims

open Sys2Proof.Claims

/-! ## Encoding and decoding -/

/-- Words written out from the layouts of 30_encoding.md R62 to R67, one for each family, decode to the instruction they
stand for. -/
def Obligations.WrittenWordsDecode : Prop :=
  route 0b01000000001000001000000110110011#32 = .instr (.sub 3 1 2) ∧
  route 0b11111111111100110000001010010011#32 = .instr (.addi 5 6 0xFFF#12) ∧
  route 0b11111110001000001001111011100011#32 = .instr (.bne 1 2 0xFFE#12) ∧
  route 0b00000000000100000000000011101111#32 = .instr (.jal 1 0x00400#20) ∧
  route 0b00010010001101000101001010110111#32 = .instr (.lui 5 0x12345#20) ∧
  route 0b00000000000100000000000001110011#32 = .instr .ebreak ∧
  route 0b11111110010100110010111000100011#32 = .instr (.store 0xFFC#12 5 6 2#3)

/-- Decoding the canonical word of any instruction gives that instruction, with every operand at every value its field
can hold. -/
def Obligations.DecodeOfEncodeIsIdentity : Prop := ∀ i : Instr, route (encode i) = .instr i

/-- The other direction: the canonical word of what a word decodes to is that word with the bits cleared that `Instr`
drops. For SLLI, ECALL and EBREAK these are the bits 30_encoding.md R77 calls ignored. LOAD, STORE, FENCE and JALR keep
`w[31:7]`, which R77 also calls ignored: that is the model's choice (notes/assumptions/12.md), since their diagnostic
reports the whole word. -/
def Obligations.EncodeOfDecodeClearsIgnoredBits : Prop :=
  ∀ (w : Word) (i : Instr), route w = .instr i → encode i = w &&& keptBits i

/-- 30_encoding.md R77 (the spec's decisions D16, D17). Words that differ only in ignored bits are the same instruction; ADDI ignores none. (The four
placeholders report their whole word, so the same instruction there means the same row of the table.) -/
def Obligations.IgnoredBitsSelectNothing : Prop :=
  (∀ w v : Word, w &&& 0x0000707F#32 = 0x00001013#32 → w &&& 0x01FFFFFF#32 = v &&& 0x01FFFFFF#32 → route v = route w) ∧
  (∀ w v : Word, opcodeOf w = 0x73#7 → w &&& 0x0010007F#32 = v &&& 0x0010007F#32 → route v = route w) ∧
  (∀ w v : Word, w &&& 0x0000707F#32 = 0x00000013#32 → route v = route w → v = w) ∧
  (∀ w v : Word, opcodeOf w ∈ [0x03#7, 0x23#7, 0x0F#7, 0x67#7] → opcodeOf v = opcodeOf w →
    ∃ i j, route w = .instr i ∧ route v = .instr j ∧ i.mnemonic = j.mnemonic)

/-- 30_encoding.md R76. The rows of the opcode map that select a word are exactly the one row of the instruction the
router gives; where no row does, the opcode decides between an unmatched operation and an unrecognised format. -/
def Obligations.OpcodeMapAgreesWithRouter : Prop :=
  ∀ w : Word,
    ((opcodeTable.filter (fun r => r.selects w)).map (fun r => r.mnemonic) =
      match route w with
      | .instr i => [i.mnemonic]
      | .unmatched _ _ => []
      | .unrecognized _ _ => []) ∧
    ((∃ f k, route w = .unmatched f k) ↔
      (∀ r ∈ opcodeTable, r.selects w = false) ∧ opcodeOf w ∈ [0x33#7, 0x13#7, 0x63#7]) ∧
    ((∃ op v, route w = .unrecognized op v) ↔
      (∀ r ∈ opcodeTable, r.selects w = false) ∧ opcodeOf w ∉ [0x33#7, 0x13#7, 0x63#7])

/-- 46_system.md R177, the one-bit rule (the spec's decision D16), with the rule's own four words. -/
def Obligations.SystemOneBitRule : Prop :=
  (∀ w : Word, opcodeOf w = 0x73#7 → route w = .instr (if w.getLsbD 20 then .ebreak else .ecall)) ∧
  route 0x300312F3#32 = .instr .ecall ∧ route 0x301312F3#32 = .instr .ebreak ∧
  route 0x30200073#32 = .instr .ecall ∧ route 0x10500073#32 = .instr .ebreak

/-- 30_encoding.md R78, 60_exceptions.md R207 and the units' R123, R132, R148: a recognised format with an unmatched
sub-key stops the run uniformly, no other format has an unmatched key, and every word of LUI, AUIPC, JAL and system is a
defined instruction. -/
def Obligations.UnmatchedKeysStop : Prop :=
  (∀ (s : State) (w : Word), Fetches s w → opcodeOf w = 0x33#7 →
    (funct3Of w, funct7Of w) ∉ [(0b000#3, 0b0000000#7), (0b000#3, 0b0100000#7), (0b100#3, 0b0000000#7)] →
    ∃ t, step s = .next t ∧ FatalStop s t (.unmatchedOperation .registerRegister (w &&& 0xFE00707F#32))) ∧
  (∀ (s : State) (w : Word), Fetches s w → opcodeOf w = 0x13#7 →
    funct3Of w ∈ [0b010#3, 0b011#3, 0b100#3, 0b101#3, 0b110#3, 0b111#3] →
    ∃ t, step s = .next t ∧ FatalStop s t (.unmatchedOperation .immediate (w &&& 0x0000707F#32))) ∧
  (∀ (s : State) (w : Word), Fetches s w → opcodeOf w = 0x63#7 → funct3Of w ∈ [0b010#3, 0b011#3] →
    ∃ t, step s = .next t ∧ FatalStop s t (.unmatchedOperation .branch (w &&& 0x0000707F#32))) ∧
  (∀ w : Word, (∃ f k, route w = .unmatched f k) →
    (opcodeOf w = 0x33#7 ∧
      (funct3Of w, funct7Of w) ∉ [(0b000#3, 0b0000000#7), (0b000#3, 0b0100000#7), (0b100#3, 0b0000000#7)]) ∨
    (opcodeOf w = 0x13#7 ∧ funct3Of w ∈ [0b010#3, 0b011#3, 0b100#3, 0b101#3, 0b110#3, 0b111#3]) ∨
    (opcodeOf w = 0x63#7 ∧ funct3Of w ∈ [0b010#3, 0b011#3])) ∧
  (∀ w : Word, opcodeOf w ∈ [0x37#7, 0x17#7, 0x6F#7, 0x73#7] → ∃ i, route w = .instr i)

/-- 60_exceptions.md R206, 30_encoding.md R79: a word whose opcode is none of the eleven stops the run, with opcode and
raw word; no word with one of the eleven opcodes is unrecognised. -/
def Obligations.UnrecognizedOpcodesStop : Prop :=
  (∀ (s : State) (w : Word), Fetches s w →
    opcodeOf w ∉ [0x33#7, 0x63#7, 0x13#7, 0x03#7, 0x23#7, 0x37#7, 0x17#7, 0x6F#7, 0x67#7, 0x0F#7, 0x73#7] →
    ∃ t, step s = .next t ∧ FatalStop s t (.unrecognizedFormat (opcodeOf w) w)) ∧
  (∀ w : Word, opcodeOf w ∈ [0x33#7, 0x63#7, 0x13#7, 0x03#7, 0x23#7, 0x37#7, 0x17#7, 0x6F#7, 0x67#7, 0x0F#7, 0x73#7] →
    ∀ op v, route w ≠ .unrecognized op v)

/-! ## Sign extension and immediates -/

/-- 40_decode_dispatch.md R90, bit by bit and as a number. -/
def Obligations.SignExtensionUnit : Prop :=
  ∀ (n : Nat) (v : Word), 1 ≤ n → n ≤ 32 →
    (∀ i, i < n → (sext n v).getLsbD i = v.getLsbD i) ∧
    (∀ i, n ≤ i → i < 32 → (sext n v).getLsbD i = v.getLsbD (n - 1)) ∧
    (sext n v).toNat =
      (if v.toNat % 2 ^ n < 2 ^ (n - 1) then v.toNat % 2 ^ n else v.toNat % 2 ^ n + 2 ^ 32 - 2 ^ n)

/-- 30_encoding.md R72: the branch offset is `sext_12(raw_B) * CT_SCALE`, which at the spec's decided scale (D3) is the even number of
bytes that the slices stand for, in -4096 .. 4094; and a branch word carries `raw_B`. -/
def Obligations.BranchOffsetScaled : Prop :=
  (∀ raw : BitVec 12, branchOffset raw = sext 12 raw * 2#32 ∧ branchOffset raw = (raw ++ 0#1).signExtend 32 ∧
    (branchOffset raw).toInt = 2 * raw.toInt ∧ -4096 ≤ (branchOffset raw).toInt ∧ (branchOffset raw).toInt ≤ 4094) ∧
  (∀ w : Word, opcodeOf w = 0x63#7 → ∀ i, route w = .instr i →
    ∃ rs1 rs2, i ∈ [Instr.beq rs1 rs2 (rawB w), .bne rs1 rs2 (rawB w), .blt rs1 rs2 (rawB w), .bge rs1 rs2 (rawB w),
      .bltu rs1 rs2 (rawB w), .bgeu rs1 rs2 (rawB w)])

/-- 30_encoding.md R73: the jump offset, likewise, in -1048576 .. 1048574. -/
def Obligations.JumpOffsetScaled : Prop :=
  (∀ raw : BitVec 20, jumpOffset raw = sext 20 raw * 2#32 ∧ jumpOffset raw = (raw ++ 0#1).signExtend 32 ∧
    (jumpOffset raw).toInt = 2 * raw.toInt ∧ -1048576 ≤ (jumpOffset raw).toInt ∧
    (jumpOffset raw).toInt ≤ 1048574) ∧
  (∀ w : Word, opcodeOf w = 0x6F#7 → ∃ rd, route w = .instr (.jal rd (rawJ w)))

/-! ## Results of the instructions: encoding, completion, new values, frame -/

/-- 41_reg_reg_alu.md R120. -/
def Obligations.AddWritesSum : Prop :=
  (∀ w : Word, w &&& 0xFE00707F#32 = 0x00000033#32 →
    route w = .instr (.add (regField w 7) (regField w 15) (regField w 20))) ∧
  ∀ (rd rs1 rs2 : RegIdx) (s : State), ∃ t, exec (.add rd rs1 rs2) s = .next t ∧
    WroteReg s t rd (BitVec.ofNat 32 ((s.reg rs1).toNat + (s.reg rs2).toNat)) ∧ t.pc = s.pc + 4#32 ∧ SameRest s t

/-- 41_reg_reg_alu.md R121. -/
def Obligations.SubWritesDifference : Prop :=
  (∀ w : Word, w &&& 0xFE00707F#32 = 0x40000033#32 →
    route w = .instr (.sub (regField w 7) (regField w 15) (regField w 20))) ∧
  ∀ (rd rs1 rs2 : RegIdx) (s : State), ∃ t, exec (.sub rd rs1 rs2) s = .next t ∧
    WroteReg s t rd (BitVec.ofInt 32 ((s.reg rs1).toNat - (s.reg rs2).toNat)) ∧ t.pc = s.pc + 4#32 ∧ SameRest s t

/-- 41_reg_reg_alu.md R122. -/
def Obligations.XorWritesExclusiveOr : Prop :=
  (∀ w : Word, w &&& 0xFE00707F#32 = 0x00004033#32 →
    route w = .instr (.xor (regField w 7) (regField w 15) (regField w 20))) ∧
  ∀ (rd rs1 rs2 : RegIdx) (s : State), ∃ t, exec (.xor rd rs1 rs2) s = .next t ∧
    (∃ v : Word, (∀ i, i < 32 → v.getLsbD i = ((s.reg rs1).getLsbD i ^^ (s.reg rs2).getLsbD i)) ∧
      WroteReg s t rd v) ∧ t.pc = s.pc + 4#32 ∧ SameRest s t

/-- 42_imm_alu.md R130. -/
def Obligations.AddiWritesSum : Prop :=
  (∀ w : Word, w &&& 0x0000707F#32 = 0x00000013#32 →
    route w = .instr (.addi (regField w 7) (regField w 15) (w.extractLsb' 20 12))) ∧
  ∀ (rd rs1 : RegIdx) (imm : BitVec 12) (s : State), ∃ t, exec (.addi rd rs1 imm) s = .next t ∧
    WroteReg s t rd (BitVec.ofInt 32 ((s.reg rs1).toNat + imm.toInt)) ∧ t.pc = s.pc + 4#32 ∧ SameRest s t

/-- 42_imm_alu.md R131, bit by bit and as a number. -/
def Obligations.SlliShiftsLeft : Prop :=
  (∀ w : Word, w &&& 0x0000707F#32 = 0x00001013#32 →
    route w = .instr (.slli (regField w 7) (regField w 15) (w.extractLsb' 20 5))) ∧
  ∀ (rd rs1 : RegIdx) (shamt : BitVec 5) (s : State), ∃ t, exec (.slli rd rs1 shamt) s = .next t ∧
    (∃ v : Word, (∀ i, i < 32 → v.getLsbD i = (decide (shamt.toNat ≤ i) && (s.reg rs1).getLsbD (i - shamt.toNat))) ∧
      v.toNat = (s.reg rs1).toNat * 2 ^ shamt.toNat % 2 ^ 32 ∧ WroteReg s t rd v) ∧
    t.pc = s.pc + 4#32 ∧ SameRest s t

/-- 43_branch.md R140, R141, R142: the branches on bit patterns. -/
def Obligations.EqualityBranches : Prop :=
  (∀ w : Word, w &&& 0x0000707F#32 = 0x00000063#32 → route w = .instr (.beq (regField w 15) (regField w 20) (rawB w))) ∧
  (∀ w : Word, w &&& 0x0000707F#32 = 0x00001063#32 → route w = .instr (.bne (regField w 15) (regField w 20) (rawB w))) ∧
  ∀ (rs1 rs2 : RegIdx) (raw : BitVec 12) (s : State),
    (∃ t, exec (.beq rs1 rs2 raw) s = .next t ∧ Branched s t (s.reg rs1 = s.reg rs2) raw) ∧
    (∃ t, exec (.bne rs1 rs2 raw) s = .next t ∧ Branched s t (s.reg rs1 ≠ s.reg rs2) raw)

/-- 43_branch.md R140, R143, R144, R147: the branches on the full-width two's-complement readings. -/
def Obligations.SignedBranches : Prop :=
  (∀ w : Word, w &&& 0x0000707F#32 = 0x00004063#32 → route w = .instr (.blt (regField w 15) (regField w 20) (rawB w))) ∧
  (∀ w : Word, w &&& 0x0000707F#32 = 0x00005063#32 → route w = .instr (.bge (regField w 15) (regField w 20) (rawB w))) ∧
  ∀ (rs1 rs2 : RegIdx) (raw : BitVec 12) (s : State),
    (∃ t, exec (.blt rs1 rs2 raw) s = .next t ∧ Branched s t ((s.reg rs1).toInt < (s.reg rs2).toInt) raw) ∧
    (∃ t, exec (.bge rs1 rs2 raw) s = .next t ∧ Branched s t ((s.reg rs2).toInt ≤ (s.reg rs1).toInt) raw)

/-- 43_branch.md R140, R145, R146: the branches on the unsigned readings. -/
def Obligations.UnsignedBranches : Prop :=
  (∀ w : Word, w &&& 0x0000707F#32 = 0x00006063#32 → route w = .instr (.bltu (regField w 15) (regField w 20) (rawB w))) ∧
  (∀ w : Word, w &&& 0x0000707F#32 = 0x00007063#32 → route w = .instr (.bgeu (regField w 15) (regField w 20) (rawB w))) ∧
  ∀ (rs1 rs2 : RegIdx) (raw : BitVec 12) (s : State),
    (∃ t, exec (.bltu rs1 rs2 raw) s = .next t ∧ Branched s t ((s.reg rs1).toNat < (s.reg rs2).toNat) raw) ∧
    (∃ t, exec (.bgeu rs1 rs2 raw) s = .next t ∧ Branched s t ((s.reg rs2).toNat ≤ (s.reg rs1).toNat) raw)

/-- 44_jump.md R155: link and target both from `PC_before`. -/
def Obligations.JalLinksAndJumps : Prop :=
  (∀ w : Word, w &&& 0x0000007F#32 = 0x0000006F#32 → route w = .instr (.jal (regField w 7) (rawJ w))) ∧
  ∀ (rd : RegIdx) (raw : BitVec 20) (s : State), ∃ t, exec (.jal rd raw) s = .next t ∧
    WroteReg s t rd (s.pc + 4#32) ∧ t.pc = s.pc + (raw ++ 0#1).signExtend 32 ∧ SameRest s t

/-- 45_upper_imm.md R165: the word with its low 12 bits cleared. -/
def Obligations.LuiWritesUpperImmediate : Prop :=
  (∀ w : Word, w &&& 0x0000007F#32 = 0x00000037#32 → route w = .instr (.lui (regField w 7) (w.extractLsb' 12 20))) ∧
  ∀ (w : Word) (rd : RegIdx) (s : State), ∃ t, exec (.lui rd (w.extractLsb' 12 20)) s = .next t ∧
    WroteReg s t rd (w &&& 0xFFFFF000#32) ∧ t.pc = s.pc + 4#32 ∧ SameRest s t

/-- 45_upper_imm.md R166. -/
def Obligations.AuipcAddsToPc : Prop :=
  (∀ w : Word, w &&& 0x0000007F#32 = 0x00000017#32 → route w = .instr (.auipc (regField w 7) (w.extractLsb' 12 20))) ∧
  ∀ (rd : RegIdx) (imm20 : BitVec 20) (s : State), ∃ t, exec (.auipc rd imm20) s = .next t ∧
    WroteReg s t rd (BitVec.ofNat 32 (imm20.toNat * 4096 + s.pc.toNat)) ∧ t.pc = s.pc + 4#32 ∧ SameRest s t

/-- 46_system.md R179: the minimal signed decimal representation (the spec's decision D21), characterised by reading it
back. That a character is an 8-bit code, with 45 for `-` and 48 to 57 for the digits, is the model's choice and no rule of
the spec (notes/assumptions/9.md). -/
def Obligations.EcallPrintsInteger : Prop :=
  ∀ s : State, s.reg 10 = 1#32 → ∃ t sign digits, exec .ecall s = .next t ∧ Printed s t (sign ++ digits) ∧
    t.env.draws = s.env.draws ∧
    sign = (if (s.reg 11).toInt < 0 then [45#8] else []) ∧
    digits ≠ [] ∧ (∀ d ∈ digits, 48 ≤ d.toNat ∧ d.toNat ≤ 57) ∧
    (digits.head? = some 48#8 → digits = [48#8]) ∧
    digits.foldl (fun n d => 10 * n + (d.toNat - 48)) 0 = (s.reg 11).toInt.natAbs

/-- 46_system.md R180: some character string, of which nothing is claimed; the core's state changes as for any other
successful ECALL. -/
def Obligations.EcallPrintsSomeFloat : Prop :=
  ∀ s : State, s.reg 10 = 10#32 → ∃ t text, exec .ecall s = .next t ∧ Printed s t text

/-- 46_system.md R181 for a string that lies below the top of the address space: the bytes before the NUL are printed; an
address out of range before the NUL is the fatal MemoryFault of that address. That what is printed before such a fault is a
beginning of the characters read is the model's choice (notes/assumptions/7.md): the spec leaves that output open (D24,
93_implementation_defined.md U8). Strings that pass the top are StringScanWrapsAtTop and StringScanFaultsPastTop. -/
def Obligations.EcallPrintsString : Prop :=
  ∀ (s : State) (text : List Byte), s.reg 10 = 100#32 →
    (s.reg 11).toNat + text.length < 2 ^ 32 →
    (∀ (k : Nat) (b : Byte), text[k]? = some b →
      Mapped s ((s.reg 11).toNat + k) ∧ byteAt s ((s.reg 11).toNat + k) = b ∧ b ≠ 0#8) →
    (Mapped s ((s.reg 11).toNat + text.length) → byteAt s ((s.reg 11).toNat + text.length) = 0#8 →
      ∃ t, exec .ecall s = .next t ∧ Printed s t text ∧ t.env.draws = s.env.draws) ∧
    (¬Mapped s ((s.reg 11).toNat + text.length) →
      ∃ t shown, exec .ecall s = .next t ∧ t.pc = s.pc ∧ SameRegs s t ∧ SameMemory s t ∧
        t.run = .stopped .memoryFault ∧
        t.env.errors = s.env.errors ++ [.fatal (.memoryFault (s.reg 11 + BitVec.ofNat 32 text.length))] ∧
        shown <+: text ∧ t.env.output = s.env.output ++ shown)

/-- The model's own reading of 46_system.md R181 at the top of the address space (notes/assumptions/8.md): the address
after the highest one is 0, and the scan goes on there. -/
def Obligations.StringScanWrapsAtTop : Prop :=
  ∀ (s : State) (text : List Byte), s.reg 10 = 100#32 → text.length < 2 ^ 32 →
    (∀ (k : Nat) (b : Byte), text[k]? = some b →
      Mapped s (((s.reg 11).toNat + k) % 2 ^ 32) ∧ byteAt s (((s.reg 11).toNat + k) % 2 ^ 32) = b ∧ b ≠ 0#8) →
    Mapped s (((s.reg 11).toNat + text.length) % 2 ^ 32) →
    byteAt s (((s.reg 11).toNat + text.length) % 2 ^ 32) = 0#8 →
    ∃ t, exec .ecall s = .next t ∧ Printed s t text

/-- 46_system.md R182: one character, the one whose code is `a1[7:0]` (the spec's decision D21). -/
def Obligations.EcallPrintsCharacter : Prop :=
  ∀ s : State, s.reg 10 = 1011#32 → ∃ t c, exec .ecall s = .next t ∧ Printed s t [c] ∧
    t.env.draws = s.env.draws ∧ c.toNat = (s.reg 11).toNat % 256

/-- 46_system.md R183: any other number is reported, non-fatal, and the cycle completes. -/
def Obligations.EcallReportsUnknownNumber : Prop :=
  ∀ s : State, s.reg 10 ∉ [1#32, 10#32, 100#32, 1011#32] → ∃ t, exec .ecall s = .next t ∧
    t.pc = s.pc + 4#32 ∧ SameRegs s t ∧ t.run = s.run ∧ SameMemory s t ∧ t.env.output = s.env.output ∧
    t.env.draws = s.env.draws ∧ t.env.errors = s.env.errors ++ [.unknownSyscall (s.reg 10)] ∧
    (s.run = .running → continueFlag t = true)

/-- 46_system.md R184 (the spec's decision D15): whatever the number, the operand and the outcome, ECALL leaves every
register, `a1` among them, unchanged; if the run goes on, it goes on at the next instruction. -/
def Obligations.EcallPreservesRegisters : Prop :=
  ∀ s t : State, exec .ecall s = .next t → SameRegs s t ∧ SameMemory s t ∧
    (t.run = s.run ∧ t.pc = s.pc + 4#32 ∨ t.run = .stopped .memoryFault ∧ t.pc = s.pc)

/-- 46_system.md R176: the terminal request, with no diagnostic; that `pc` advances is the spec's decision D7. -/
def Obligations.EbreakStops : Prop :=
  (∀ w : Word, w &&& 0x0010007F#32 = 0x00100073#32 → route w = .instr .ebreak) ∧
  ∀ s : State, ∃ t, exec .ebreak s = .next t ∧ t.pc = s.pc + 4#32 ∧ SameRegs s t ∧ SameMemory s t ∧ t.env = s.env ∧
    t.run = .stopped .breakpoint ∧ continueFlag t = false ∧ ∀ u, step t ≠ .next u

/-- 47_placeholders.md R195 to R198, 60_exceptions.md R208 (the spec's decision D6): every word of a placeholder format raises the fatal
`NotImplemented(format, w)`. -/
def Obligations.PlaceholdersStop : Prop :=
  ∀ (s : State) (w : Word),
    (opcodeOf w = 0x03#7 → ∃ imm rs1 f3 rd t, route w = .instr (.load imm rs1 f3 rd) ∧
      exec (.load imm rs1 f3 rd) s = .next t ∧ FatalStop s t (.notImplemented .load w)) ∧
    (opcodeOf w = 0x23#7 → ∃ imm rs2 rs1 f3 t, route w = .instr (.store imm rs2 rs1 f3) ∧
      exec (.store imm rs2 rs1 f3) s = .next t ∧ FatalStop s t (.notImplemented .store w)) ∧
    (opcodeOf w = 0x0F#7 → ∃ imm rs1 f3 rd t, route w = .instr (.fence imm rs1 f3 rd) ∧
      exec (.fence imm rs1 f3 rd) s = .next t ∧ FatalStop s t (.notImplemented .fence w)) ∧
    (opcodeOf w = 0x67#7 → ∃ imm rs1 f3 rd t, route w = .instr (.jalr imm rs1 f3 rd) ∧
      exec (.jalr imm rs1 f3 rd) s = .next t ∧ FatalStop s t (.notImplemented .jumpAndLinkRegister w))

/-- The placeholders as instructions, at every value of every field: each takes the NotImplemented stop that is its whole
effect, and reports its own word (47_placeholders.md R195 to R198). -/
def Obligations.PlaceholderInstructionsComplete : Prop :=
  ∀ (s : State) (imm : BitVec 12) (r r' : RegIdx) (f3 : BitVec 3),
    (∃ t, exec (.load imm r f3 r') s = .next t ∧
      FatalStop s t (.notImplemented .load (encode (.load imm r f3 r')))) ∧
    (∃ t, exec (.store imm r r' f3) s = .next t ∧
      FatalStop s t (.notImplemented .store (encode (.store imm r r' f3)))) ∧
    (∃ t, exec (.fence imm r f3 r') s = .next t ∧
      FatalStop s t (.notImplemented .fence (encode (.fence imm r f3 r')))) ∧
    (∃ t, exec (.jalr imm r f3 r') s = .next t ∧
      FatalStop s t (.notImplemented .jumpAndLinkRegister (encode (.jalr imm r f3 r'))))

/-! ## The fetch and the cycle -/

/-- When the four bytes at `pc` are readable and decode to an instruction, a step of a running core is exec of that
instruction and nothing around it: the meanings themselves commit `pc` (40_decode_dispatch.md R96, R98). -/
def Obligations.StepRunsDecodedInstruction : Prop :=
  ∀ (s : State) (i : Instr), s.run = .running → s.pc.toNat + 4 ≤ 2 ^ 32 →
    (∀ k, k < 4 → Mapped s (s.pc.toNat + k)) →
    route (byteAt s (s.pc.toNat + 3) ++ byteAt s (s.pc.toNat + 2) ++ byteAt s (s.pc.toNat + 1) ++
      byteAt s s.pc.toNat) = .instr i →
    step s = exec i s

/-- 20_memory.md R43 (the spec's decision D4): the fetched word is assembled little-endian from the bytes at `pc .. pc+3`,
at every `pc`, aligned or not. -/
def Obligations.FetchIsLittleEndian : Prop :=
  ∀ s : State, s.pc.toNat + 4 ≤ 2 ^ 32 → (∀ k, k < 4 → Mapped s (s.pc.toNat + k)) →
    ∃ w, fetch s = .word w ∧ ∀ k, k < 4 → w.extractLsb' (8 * k) 8 = byteAt s (s.pc.toNat + k)

/-- 20_memory.md R48, R49: a fetch of which some byte lies outside every region, or that would run past the top of the
address space (the spec's decision D20), is the fatal MemoryFault of `pc`, whatever memory holds. -/
def Obligations.FetchFaults : Prop :=
  ∀ s : State, s.run = .running →
    ((∃ k, k < 4 ∧ ¬Mapped s (s.pc.toNat + k)) ∨ 2 ^ 32 - 4 < s.pc.toNat) →
    ∃ t, step s = .next t ∧ FatalStop s t (.memoryFault s.pc)

/-- 10_state.md R33 (the spec's decision D9): a stopped core performs no cycle; a cycle that returns `continue = false`
leaves the latch stopped; and no instruction reads the latch (nothing is claimed of output that a free value decides). -/
def Obligations.RunLatchHoldsTheStop : Prop :=
  (∀ (s : State) (c : StopCause), s.run = .stopped c → ∀ t, step s ≠ .next t) ∧
  (∀ s t : State, step s = .next t → (continueFlag t = false ↔ ∃ c, t.run = .stopped c)) ∧
  (∀ (i : Instr) (s t : State) (r : Run), s.run = .running → exec i s = .next t →
    ∃ u, exec i (s.setRun r) = .next u ∧ u.pc = t.pc ∧ SameRegs t u ∧ SameEnv s.env t.env u.env ∧
      (t.run = .running → u.run = r) ∧ (t.run ≠ .running → u.run = t.run))

/-- 10_state.md R27 (EBREAK and the fatal stops by the spec's decision D7): exactly one of unchanged (a fatal stop), the transfer's target, and
`PC_before + 4`. -/
def Obligations.PcContract : Prop :=
  ∀ s t : State, step s = .next t →
    (∀ c, t.run = .stopped c → c ≠ .breakpoint → t.pc = s.pc) ∧
    (t.run = .running ∨ t.run = .stopped .breakpoint →
      ∃ i, Runs s i ∧ t.pc =
        match transferOffset s i with
        | some off => s.pc + off
        | none => s.pc + 4#32)

/-- 40_decode_dispatch.md R100: a cycle that raises a fatal condition changes no general register,
not `pc` and no memory, emits exactly its own record, and is never executed again (the spec's decision D7). -/
def Obligations.FatalCyclesMutateNothing : Prop :=
  ∀ (s t : State) (c : StopCause), step s = .next t → t.run = .stopped c → c ≠ .breakpoint →
    t.pc = s.pc ∧ SameRegs s t ∧ SameMemory s t ∧
      (∃ f : Fatal, f.cause = c ∧ t.env.errors = s.env.errors ++ [.fatal f]) ∧ ∀ u, step t ≠ .next u

/-- 40_decode_dispatch.md R99: `continue = false` exactly when the cycle raised a fatal diagnostic or executed EBREAK, and
a non-fatal diagnostic leaves it true. -/
def Obligations.ContinueFlagMeaning : Prop :=
  ∀ s t : State, step s = .next t →
    (continueFlag t = false ↔ (∃ f : Fatal, t.env.errors = s.env.errors ++ [.fatal f]) ∨ Runs s .ebreak) ∧
    ((∃ n, t.env.errors = s.env.errors ++ [.unknownSyscall n]) → continueFlag t = true)

/-- 60_exceptions.md R205, R213: at most one record per cycle; a non-fatal one comes from an ECALL with an unsupported
number, and EBREAK's cycle emits none. -/
def Obligations.AtMostOneDiagnostic : Prop :=
  ∀ s t : State, step s = .next t →
    (t.env.errors = s.env.errors ∨ ∃ d, t.env.errors = s.env.errors ++ [d]) ∧
    (∀ n, t.env.errors = s.env.errors ++ [.unknownSyscall n] →
      Runs s .ecall ∧ n = s.reg 10 ∧ n ∉ [1#32, 10#32, 100#32, 1011#32]) ∧
    (t.run = .stopped .breakpoint → Runs s .ebreak ∧ t.env.errors = s.env.errors)

/-- 20_memory.md R42, 47_placeholders.md R199: the core never writes memory. -/
def Obligations.CoreNeverWritesMemory : Prop := ∀ s t : State, step s = .next t → SameMemory s t

/-- 10_state.md R25: a cycle changes no general register but the destination its instruction names, and never `x[0]`. -/
def Obligations.OnlyTheDestinationChanges : Prop :=
  ∀ s t : State, step s = .next t →
    t.reg 0 = 0#32 ∧ ∀ r : RegIdx, t.reg r ≠ s.reg r → ∃ i, Runs s i ∧ dest i = some r

/-- 10_state.md R25, 70_reset_and_hazards.md R251: what an instruction does depends on `pc`, on the registers it reads and
on the environment alone; no other register and not the latch can be told from its effect. Nothing is claimed of output
that a free value decides (notes/assumptions/6.md, notes/assumptions/7.md). -/
def Obligations.ResultsDependOnSourcesAlone : Prop :=
  ∀ (i : Instr) (s s' t : State), s'.pc = s.pc → s'.env = s.env → (∀ r ∈ sources i, s'.reg r = s.reg r) →
    exec i s = .next t → ∃ t', exec i s' = .next t' ∧ t'.pc = t.pc ∧ SameEnv s.env t.env t'.env ∧
      (∀ r, dest i = some r → t'.reg r = t.reg r) ∧ (∀ r, dest i ≠ some r → t'.reg r = s'.reg r)

/-- 46_system.md R185: characters are only ever appended to the output channel, and by ECALL alone. -/
def Obligations.OutputOnlyByEcall : Prop :=
  ∀ s t : State, step s = .next t →
    (∃ text, t.env.output = s.env.output ++ text) ∧ (t.env.output ≠ s.env.output → Runs s .ecall)

/-- 10_state.md R22 (and R23, the write): register 0 reads 0 in every state, a write to it is lost, and a write to any other register is
read back and seen nowhere else. -/
def Obligations.RegisterZeroIsHardwired : Prop :=
  (∀ s : State, s.reg 0 = 0#32) ∧ (∀ (s : State) (v : Word), s.setReg 0 v = s) ∧
  (∀ (s : State) (i : RegIdx) (v : Word), i ≠ 0 → (s.setReg i v).reg i = v) ∧
  (∀ (s : State) (i j : RegIdx) (v : Word), j ≠ i → (s.setReg i v).reg j = s.reg j)

/-- A fetched word, placed in memory at `pc` from outside, is what the next step runs (70_reset_and_hazards.md R244,
R245). This is the model's own load operation (notes/assumptions/3.md). -/
def Obligations.PlacedWordRunsNext : Prop :=
  ∀ (s : State) (w : Word) (i : Instr), s.env.mem.wf = true → s.pc.toNat + 4 ≤ 2 ^ 32 → route w = .instr i →
    step (s.withFetchWord 32 w.toNat) = exec i (s.withFetchWord 32 w.toNat)

/-- 20_memory.md R53: a byte that the owner of the memory changes between cycles is seen by the next fetch, the other
three bytes as they were. -/
def Obligations.FetchSeesHostWrites : Prop :=
  ∀ (s : State) (a : Word) (b : Byte) (k : Nat), s.env.mem.wf = true → s.pc.toNat + 4 ≤ 2 ^ 32 →
    (∀ j, j < 4 → Mapped s (s.pc.toNat + j)) → k < 4 → a.toNat = s.pc.toNat + k →
    ∃ s' w, serve (.writeMemory a b) (.present s) = .next (.present s') ∧ fetch s' = .word w ∧
      w.extractLsb' (8 * k) 8 = b ∧
      ∀ j, j < 4 → j ≠ k → w.extractLsb' (8 * j) 8 = byteAt s (s.pc.toNat + j)

/-- 70_reset_and_hazards.md R254: a requested cycle of a running core ends, provided some address is out of range or holds
a NUL for a string scan to reach. That a scan from any start reaches such an address wherever it lies rests on the model's
choice that the scan goes on at 0 after the highest address (notes/assumptions/8.md); R254 asks only for one that the scan
reaches. -/
def Obligations.EveryCycleEnds : Prop :=
  ∀ s : State, s.run = .running → (∃ a, a < 2 ^ 32 ∧ (¬Mapped s a ∨ byteAt s a = 0#8)) → ∃ t, step s = .next t

/-! ## Reset, and the invariants -/

/-- 10_state.md R37, 70_reset_and_hazards.md R242: the reset values, for all layout constants; memory and the channels are
not touched. -/
def Obligations.ResetValues : Prop :=
  ∀ (l : Layout) (e : Env), (State.create l e).pc = l.textBase ∧ (State.create l e).reg 2 = l.stackTop - 4#32 ∧
    (State.create l e).reg 3 = l.dataBase ∧
    (∀ r : RegIdx, r ≠ 2 → r ≠ 3 → (State.create l e).reg r = 0#32) ∧
    (State.create l e).run = .running ∧ (State.create l e).env = e

/-- 70_reset_and_hazards.md R240, R243: a create request is served in any state, stopped or not, and gives the reset state
over the same environment; a destroy request leaves memory as it was. That it leaves the channels too, and that a cycle
requested where no core exists answers no next state, is the model's reading (notes/assumptions/17.md): R243 says that no
memory is written and that no cycle may be requested. -/
def Obligations.CreateAndDestroy : Prop :=
  (∀ (l : Layout) (p : Platform), serve (.create l) p = .next (.present (State.create l p.env))) ∧
  (∀ s : State, serve .destroy (.present s) = .next (.absent s.env)) ∧
  (∀ (e : Env) (q : Platform), serve .cycle (.absent e) ≠ .next q)

/-- The invariant of the model (Sys2Proof/Safety.lean): memory is canonical, every record on the error channel is
justified by the rule of its kind, and a fatal stop carries its record (60_exceptions.md R205 to R210). Every step keeps
it. -/
def Obligations.StepKeepsInvariant : Prop := ∀ s t : State, Inv s → Machine.step s = .next t → Inv t

/-- The invariant holds right after reset, for all layout constants over an environment whose channels are empty and whose
memory is canonical, and so at State.reset. -/
def Obligations.ResetEstablishesInvariant : Prop :=
  (∀ (l : Layout) (e : Env), e.mem.wf = true → e.errors = [] → Inv (State.create l e)) ∧ Inv State.reset

/-- An even `pc` stays even (10_state.md R29: with `CT_SCALE = 2` offsets are even, and nothing aligns to 4). -/
def Obligations.StepKeepsPcEven : Prop :=
  ∀ s t : State, s.pc.toNat % 2 = 0 → step s = .next t → t.pc.toNat % 2 = 0

/-! ## A string that passes the top of the address space, without a NUL -/

/-- The other ending of StringScanWrapsAtTop: a scan that goes on at address 0 after the highest one and then meets an
address out of range is the fatal MemoryFault of that address (46_system.md R181). The wrap is the model's own reading
(notes/assumptions/8.md), and so is that what is printed before the fault is a beginning of the characters read
(notes/assumptions/7.md). -/
def Obligations.StringScanFaultsPastTop : Prop :=
  ∀ (s : State) (text : List Byte), s.reg 10 = 100#32 → text.length < 2 ^ 32 →
    (∀ (k : Nat) (b : Byte), text[k]? = some b →
      Mapped s (((s.reg 11).toNat + k) % 2 ^ 32) ∧ byteAt s (((s.reg 11).toNat + k) % 2 ^ 32) = b ∧ b ≠ 0#8) →
    ¬Mapped s (((s.reg 11).toNat + text.length) % 2 ^ 32) →
    ∃ t shown, exec .ecall s = .next t ∧ t.pc = s.pc ∧ SameRegs s t ∧ SameMemory s t ∧
      t.run = .stopped .memoryFault ∧
      t.env.errors = s.env.errors ++ [.fatal (.memoryFault (s.reg 11 + BitVec.ofNat 32 text.length))] ∧
      shown <+: text ∧ t.env.output = s.env.output ++ shown
end

