-- ==== Sys2Proof/Laws/Decode.lean ====
section
/-! SUPPORT. What the decoder's slices read back from an encoded word, layout by layout, and the shape of the router. -/

namespace Sys2Proof

theorem formatOf_opcode (f : Format) : formatOf f.opcode = some f := by cases f <;> decide

theorem opcode_of_formatOf {op : BitVec 7} {f : Format} (h : formatOf op = some f) : op = f.opcode := by
  unfold formatOf at h
  repeat' split at h
  all_goals simp_all

/-- The router on a word of a known format. -/
theorem route_of_format {w : Word} {f : Format} (h : formatOf (opcodeOf w) = some f) :
    route w = match select (fieldsUnder w f) with
      | some i => .instr i
      | none => .unmatched f (w &&& f.keyMask) := by
  cases hs : select (fieldsUnder w f) <;> simp [route, decodeFields, h, hs]

theorem route_of_unrecognized {w : Word} (h : formatOf (opcodeOf w) = none) :
    route w = .unrecognized (opcodeOf w) w := by
  simp only [route, h]

/-- The key matches an operation exactly when the decoder's fields are well formed. -/
theorem select_isSome (fs : Fields) : (select fs).isSome = fs.wellFormed := by
  cases fs with
  | registerRegister funct7 _ _ funct3 _ =>
    simp only [select, Fields.wellFormed]
    by_cases h0 : funct3 = 0b000#3 <;> by_cases h4 : funct3 = 0b100#3 <;> by_cases h7 : funct7 = 0b0000000#7 <;>
      by_cases h8 : funct7 = 0b0100000#7 <;> simp_all
  | branch _ _ _ _ funct3 _ _ =>
    simp only [select, Fields.wellFormed]
    revert funct3
    intro funct3
    have : ∀ f3 : BitVec 3, f3 = 0#3 ∨ f3 = 1#3 ∨ f3 = 2#3 ∨ f3 = 3#3 ∨ f3 = 4#3 ∨ f3 = 5#3 ∨ f3 = 6#3 ∨ f3 = 7#3 := by
      decide
    rcases this funct3 with rfl | rfl | rfl | rfl | rfl | rfl | rfl | rfl <;> simp
  | immediate _ _ funct3 _ =>
    simp only [select, Fields.wellFormed]
    by_cases h0 : funct3 = 0b000#3 <;> by_cases h1 : funct3 = 0b001#3 <;> simp_all
  | system imm _ _ _ => simp only [select, Fields.wellFormed]; split <;> rfl
  | _ => rfl

/-! ## Slices of an encoded word -/

theorem opcodeOf_append {n : Nat} (a : BitVec n) (op : BitVec 7) (h : n + 7 = 32) :
    opcodeOf ((a ++ op).cast h) = op := by
  apply BitVec.eq_of_getLsbD_eq
  intro i hi
  simp only [opcodeOf, BitVec.getLsbD_extractLsb', BitVec.getLsbD_cast, BitVec.getLsbD_append]
  simp [hi]

section Slices
variable (f7 : BitVec 7) (rs2 rs1 rd : RegIdx) (f3 : BitVec 3) (op : BitVec 7) (imm : BitVec 12) (imm20 : BitVec 20)

@[simp] theorem opcodeOf_encodeR : opcodeOf (encodeR f7 rs2 rs1 f3 rd op) = op := opcodeOf_append _ op rfl
@[simp] theorem opcodeOf_encodeI : opcodeOf (encodeI imm rs1 f3 rd op) = op := opcodeOf_append _ op rfl
@[simp] theorem opcodeOf_encodeS : opcodeOf (encodeS imm rs2 rs1 f3 op) = op := opcodeOf_append _ op rfl
@[simp] theorem opcodeOf_encodeB : opcodeOf (encodeB imm rs2 rs1 f3 op) = op := opcodeOf_append _ op rfl
@[simp] theorem opcodeOf_encodeU : opcodeOf (encodeU imm20 rd op) = op := opcodeOf_append _ op rfl
@[simp] theorem opcodeOf_encodeJ : opcodeOf (encodeJ imm20 rd op) = op := opcodeOf_append _ op rfl

end Slices

/-! ## Key masks on encoded words (30_encoding.md R69) -/

theorem encodeR_key (f7 : BitVec 7) (rs2 rs1 rd : RegIdx) (f3 : BitVec 3) (op : BitVec 7) :
    encodeR f7 rs2 rs1 f3 rd op &&& 0xFE00707F#32 = f7 ++ 0#10 ++ f3 ++ 0#5 ++ op := by
  apply BitVec.eq_of_getLsbD_eq
  intro i hi
  simp only [encodeR, BitVec.getLsbD_and, BitVec.getLsbD_append]
  interval_cases i <;> simp

theorem encodeI_key (imm : BitVec 12) (rs1 rd : RegIdx) (f3 : BitVec 3) (op : BitVec 7) :
    encodeI imm rs1 f3 rd op &&& 0x0000707F#32 = 0#17 ++ f3 ++ 0#5 ++ op := by
  apply BitVec.eq_of_getLsbD_eq
  intro i hi
  simp only [encodeI, BitVec.getLsbD_and, BitVec.getLsbD_append]
  interval_cases i <;> simp

theorem encodeB_key (raw : BitVec 12) (rs2 rs1 : RegIdx) (f3 : BitVec 3) (op : BitVec 7) :
    encodeB raw rs2 rs1 f3 op &&& 0x0000707F#32 = 0#17 ++ f3 ++ 0#5 ++ op := by
  apply BitVec.eq_of_getLsbD_eq
  intro i hi
  simp only [encodeB, BitVec.getLsbD_and, BitVec.getLsbD_append]
  interval_cases i <;> simp

/-- Where the key is the opcode alone. -/
theorem opcode_key (w : Word) : w &&& 0x0000007F#32 = 0#25 ++ opcodeOf w := by
  apply BitVec.eq_of_getLsbD_eq
  intro i hi
  simp only [opcodeOf, BitVec.getLsbD_and, BitVec.getLsbD_append, BitVec.getLsbD_extractLsb']
  interval_cases i <;> simp

end Sys2Proof
end

