-- ==== Sys2Proof/Laws/RegFile.lean ====
section
/-! SUPPORT. The laws of the register file: reads after writes, the zero register, and extensionality. -/

namespace Sys2Proof.Machine

@[simp] theorem RegFile.read_zero (f : RegFile) : f.read 0 = 0#32 := by
  simp [RegFile.read]

@[simp] theorem RegFile.write_zero (f : RegFile) (v : Word) : f.write 0 v = f := by
  simp [RegFile.write]

theorem RegFile.read_write_same (f : RegFile) {i : RegIdx} (v : Word) (h : i ≠ 0) : (f.write i v).read i = v := by
  have hi : i.val ≠ 0 := fun e => h (Fin.ext e)
  simp [RegFile.read, RegFile.write, hi]

theorem RegFile.read_write_other (f : RegFile) {i j : RegIdx} (v : Word) (h : j ≠ i) :
    (f.write i v).read j = f.read j := by
  unfold RegFile.read RegFile.write
  split
  · rfl
  · split
    · rfl
    · have : i.val - 1 ≠ j.val - 1 := by
        have : i.val ≠ j.val := fun e => h (Fin.ext e.symm)
        omega
      simp [this]

/-- What a write does to every read, in one line. -/
theorem RegFile.read_write (f : RegFile) (i j : RegIdx) (v : Word) :
    (f.write i v).read j = if j = i ∧ i ≠ 0 then v else f.read j := by
  by_cases hj : j = i
  · subst hj
    by_cases h0 : j = 0
    · subst h0; simp
    · simp [RegFile.read_write_same f v h0, h0]
  · simp [RegFile.read_write_other f v hj, hj]

@[simp] theorem RegFile.read_zeroFile (i : RegIdx) : RegFile.zero.read i = 0#32 := by
  unfold RegFile.read RegFile.zero
  split <;> simp

/-- Files that read alike are equal data. -/
theorem RegFile.ext_read {f g : RegFile} (h : ∀ i, f.read i = g.read i) : f = g := by
  obtain ⟨a⟩ := f
  obtain ⟨b⟩ := g
  congr 1
  apply Vector.ext
  intro k hk
  have := h ⟨k + 1, by omega⟩
  simpa [RegFile.read] using this

end Sys2Proof.Machine
end

