-- ==== Sys2Proof/Laws/State.lean ====
section
/-! SUPPORT. One lemma per field per update, so that no proof unfolds a record update; then what the shared operations of
Machine/Ops.lean do to each field. -/

namespace Sys2Proof.Machine

variable (s : State) (e : Env)

@[simp] theorem State.setReg_pc (i : RegIdx) (v : Word) : (s.setReg i v).pc = s.pc := rfl
@[simp] theorem State.setReg_x (i : RegIdx) (v : Word) : (s.setReg i v).x = s.x.write i v := rfl
@[simp] theorem State.setReg_run (i : RegIdx) (v : Word) : (s.setReg i v).run = s.run := rfl
@[simp] theorem State.setReg_env (i : RegIdx) (v : Word) : (s.setReg i v).env = s.env := rfl

@[simp] theorem State.setPc_pc (t : Word) : (s.setPc t).pc = t := rfl
@[simp] theorem State.setPc_x (t : Word) : (s.setPc t).x = s.x := rfl
@[simp] theorem State.setPc_run (t : Word) : (s.setPc t).run = s.run := rfl
@[simp] theorem State.setPc_env (t : Word) : (s.setPc t).env = s.env := rfl

@[simp] theorem State.setRun_pc (r : Run) : (s.setRun r).pc = s.pc := rfl
@[simp] theorem State.setRun_x (r : Run) : (s.setRun r).x = s.x := rfl
@[simp] theorem State.setRun_run (r : Run) : (s.setRun r).run = r := rfl
@[simp] theorem State.setRun_env (r : Run) : (s.setRun r).env = s.env := rfl

@[simp] theorem State.setEnv_pc (e : Env) : (s.setEnv e).pc = s.pc := rfl
@[simp] theorem State.setEnv_x (e : Env) : (s.setEnv e).x = s.x := rfl
@[simp] theorem State.setEnv_run (e : Env) : (s.setEnv e).run = s.run := rfl
@[simp] theorem State.setEnv_env (e : Env) : (s.setEnv e).env = e := rfl

@[simp] theorem Env.print_mem (t : List Byte) : (e.print t).mem = e.mem := rfl
@[simp] theorem Env.print_regions (t : List Byte) : (e.print t).regions = e.regions := rfl
@[simp] theorem Env.print_output (t : List Byte) : (e.print t).output = e.output ++ t := rfl
@[simp] theorem Env.print_errors (t : List Byte) : (e.print t).errors = e.errors := rfl
@[simp] theorem Env.print_draws (t : List Byte) : (e.print t).draws = e.draws := rfl

@[simp] theorem Env.report_mem (d : Diagnostic) : (e.report d).mem = e.mem := rfl
@[simp] theorem Env.report_regions (d : Diagnostic) : (e.report d).regions = e.regions := rfl
@[simp] theorem Env.report_output (d : Diagnostic) : (e.report d).output = e.output := rfl
@[simp] theorem Env.report_errors (d : Diagnostic) : (e.report d).errors = e.errors ++ [d] := rfl
@[simp] theorem Env.report_draws (d : Diagnostic) : (e.report d).draws = e.draws := rfl

@[simp] theorem Env.drew_mem : e.drew.mem = e.mem := rfl
@[simp] theorem Env.drew_regions : e.drew.regions = e.regions := rfl
@[simp] theorem Env.drew_output : e.drew.output = e.output := rfl
@[simp] theorem Env.drew_errors : e.drew.errors = e.errors := rfl
@[simp] theorem Env.drew_draws : e.drew.draws = e.draws + 1 := rfl

/-- States are equal when their registers read alike and the other fields agree. -/
theorem State.ext_reg {s t : State} (hpc : s.pc = t.pc) (hx : ∀ i, s.reg i = t.reg i) (hrun : s.run = t.run)
    (henv : s.env = t.env) : s = t := by
  obtain ⟨p, x, r, e⟩ := s
  obtain ⟨p', x', r', e'⟩ := t
  obtain rfl : x = x' := RegFile.ext_read hx
  simp_all

@[simp] theorem State.reg_zero : s.reg 0 = 0#32 := by simp [State.reg]
@[simp] theorem State.reg_setPc (t : Word) (i : RegIdx) : (s.setPc t).reg i = s.reg i := rfl
@[simp] theorem State.reg_setRun (r : Run) (i : RegIdx) : (s.setRun r).reg i = s.reg i := rfl
@[simp] theorem State.reg_setEnv (e : Env) (i : RegIdx) : (s.setEnv e).reg i = s.reg i := rfl
theorem State.reg_setReg (i j : RegIdx) (v : Word) :
    (s.setReg i v).reg j = if j = i ∧ i ≠ 0 then v else s.reg j :=
  RegFile.read_write ..

/-! ## Ops -/

@[simp] theorem commitWrite_pc (w : Option (RegIdx × Word)) : (commitWrite w s).pc = s.pc := by cases w <;> rfl
@[simp] theorem commitWrite_run (w : Option (RegIdx × Word)) : (commitWrite w s).run = s.run := by cases w <;> rfl
@[simp] theorem commitWrite_env (w : Option (RegIdx × Word)) : (commitWrite w s).env = s.env := by cases w <;> rfl
@[simp] theorem commitWrite_none : commitWrite none s = s := rfl
@[simp] theorem commitWrite_some (rd : RegIdx) (v : Word) : commitWrite (some (rd, v)) s = s.setReg rd v := rfl

@[simp] theorem nextPc_none (p : Word) : nextPc none p = p + 4#32 := rfl
@[simp] theorem nextPc_some (t p : Word) : nextPc (some t) p = t := rfl

@[simp] theorem commit_pc (y : Yield) : (commit y s).pc = nextPc y.target s.pc := rfl
@[simp] theorem commit_run (y : Yield) : (commit y s).run = s.run := by simp [commit]
@[simp] theorem commit_env (y : Yield) : (commit y s).env = s.env := by simp [commit]
@[simp] theorem commit_reg (y : Yield) (i : RegIdx) : (commit y s).reg i = (commitWrite y.write s).reg i := rfl

@[simp] theorem report_pc (d : Diagnostic) : (report d s).pc = s.pc := rfl
@[simp] theorem report_x (d : Diagnostic) : (report d s).x = s.x := rfl
@[simp] theorem report_reg (d : Diagnostic) (i : RegIdx) : (report d s).reg i = s.reg i := rfl
@[simp] theorem report_run (d : Diagnostic) : (report d s).run = s.run := rfl
@[simp] theorem report_env (d : Diagnostic) : (report d s).env = s.env.report d := rfl

@[simp] theorem stop_pc (c : StopCause) : (stop c s).pc = s.pc := rfl
@[simp] theorem stop_x (c : StopCause) : (stop c s).x = s.x := rfl
@[simp] theorem stop_reg (c : StopCause) (i : RegIdx) : (stop c s).reg i = s.reg i := rfl
@[simp] theorem stop_run (c : StopCause) : (stop c s).run = .stopped c := rfl
@[simp] theorem stop_env (c : StopCause) : (stop c s).env = s.env := rfl

@[simp] theorem raise_pc (f : Fatal) : (raise f s).pc = s.pc := rfl
@[simp] theorem raise_x (f : Fatal) : (raise f s).x = s.x := rfl
@[simp] theorem raise_reg (f : Fatal) (i : RegIdx) : (raise f s).reg i = s.reg i := rfl
@[simp] theorem raise_run (f : Fatal) : (raise f s).run = .stopped f.cause := rfl
@[simp] theorem raise_env (f : Fatal) : (raise f s).env = s.env.report (.fatal f) := rfl

/-- No fatal condition has the cause Breakpoint. -/
theorem Fatal.cause_ne_breakpoint (f : Fatal) : f.cause ≠ .breakpoint := by cases f <;> simp [Fatal.cause]

end Sys2Proof.Machine
end

