-- ==== Sys2Proof/Laws/Exec.lean ====
section
/-! SUPPORT. What every instruction can do, said once: the shape of the next state of `exec`, and what the syscall
handler can do to the environment. -/

namespace Sys2Proof.Machine

/-! ## The syscall handler -/

/-- Every answer of the handler leaves memory, its bounds and the error channel alone, extends the output channel, and is
one of `Ok(none)`, `Unknown` and `MemFault` (46_system.md R178, R184). -/
theorem syscall_cases {n a : Word} {e e' : Env} {ans : Answer} (h : syscall n a e = .answered ans e') :
    e'.mem = e.mem ∧ e'.regions = e.regions ∧ e'.errors = e.errors ∧ (∃ text, e'.output = e.output ++ text) ∧
      (ans = .ok none ∨ (ans = .unknown ∧ e' = e) ∨
        ∃ text ad, ans = .memFault ad ∧ scanString e.regions e.mem addressSpace a = .outOfRange text ad) := by
  unfold syscall at h
  repeat' split at h
  all_goals (simp only [Service.answered.injEq, reduceCtorEq] at h)
  case isTrue => obtain ⟨rfl, rfl⟩ := h; exact ⟨rfl, rfl, rfl, ⟨_, rfl⟩, .inl rfl⟩
  case isTrue => obtain ⟨rfl, rfl⟩ := h; exact ⟨rfl, rfl, rfl, ⟨_, rfl⟩, .inl rfl⟩
  case h_1 => obtain ⟨rfl, rfl⟩ := h; exact ⟨rfl, rfl, rfl, ⟨_, rfl⟩, .inl rfl⟩
  case h_2 text ad hs => obtain ⟨rfl, rfl⟩ := h; exact ⟨rfl, rfl, rfl, ⟨_, rfl⟩, .inr (.inr ⟨text, ad, rfl, hs⟩)⟩
  case isTrue => obtain ⟨rfl, rfl⟩ := h; exact ⟨rfl, rfl, rfl, ⟨_, rfl⟩, .inl rfl⟩
  case isFalse => obtain ⟨rfl, rfl⟩ := h; exact ⟨rfl, rfl, rfl, ⟨[], by simp⟩, .inr (.inl ⟨rfl, rfl⟩)⟩

/-- An unknown answer comes from an unsupported number alone. -/
theorem syscall_unknown {n a : Word} {e e' : Env} (h : syscall n a e = .answered .unknown e') :
    n ≠ Params.sysPrintInt ∧ n ≠ Params.sysPrintFloat ∧ n ≠ Params.sysPrintString ∧ n ≠ Params.sysPrintChar := by
  unfold syscall at h
  repeat' split at h
  all_goals simp_all

/-- The address a scan faults at is out of range. -/
theorem scanString_outOfRange {rs : List Region} {m : Memory} : ∀ {fuel : Nat} {a : Word} {text : List Byte} {ad : Word},
    scanString rs m fuel a = .outOfRange text ad → spanInRange rs ad.toNat 1 = false
  | 0, _, _, _, h => by simp [scanString] at h
  | fuel + 1, a, text, ad, h => by
      unfold scanString memReadByte at h
      split at h
      · rename_i ad' hr
        simp only [Scan.outOfRange.injEq] at h
        obtain ⟨-, rfl⟩ := h
        split at hr
        · simp at hr
        · simp only [ByteAnswer.outOfRange.injEq] at hr
          subst hr
          exact Bool.eq_false_iff.2 (by assumption)
      · split at h
        · simp at h
        · cases hs : scanString rs m fuel (a + 1#32) with
          | nul t => simp [hs, Scan.cons] at h
          | endless => simp [hs, Scan.cons] at h
          | outOfRange t ad' =>
            simp only [hs, Scan.cons, Scan.outOfRange.injEq] at h
            obtain ⟨-, rfl⟩ := h
            exact scanString_outOfRange hs

/-! ## ECALL -/

/-- What ECALL can do when it answers a next state. -/
theorem execEcall_cases {s t : State} (h : execEcall s = .next t) :
    ∃ ans e, syscall (s.reg Params.regA0) (s.reg Params.regA1) s.env = .answered ans e ∧
      ((ans = .ok none ∧ t = commit {} (s.setEnv e)) ∨
        (ans = .unknown ∧ t = commit {} (report (.unknownSyscall (s.reg Params.regA0)) (s.setEnv e))) ∨
        (∃ ad, ans = .memFault ad ∧ t = raise (.memoryFault ad) (s.setEnv e))) := by
  unfold execEcall at h
  cases hs : syscall (s.reg Params.regA0) (s.reg Params.regA1) s.env with
  | endless => simp [hs, afterSyscall] at h
  | answered ans e =>
    rw [hs] at h
    refine ⟨ans, e, rfl, ?_⟩
    obtain rfl | ⟨rfl, -⟩ | ⟨text, ad, rfl, -⟩ := (syscall_cases hs).2.2.2.2
    · simp only [afterSyscall, Host.Outcome.next.injEq] at h; exact .inl ⟨rfl, h.symm⟩
    · simp only [afterSyscall, Host.Outcome.next.injEq] at h; exact .inr (.inl ⟨rfl, h.symm⟩)
    · simp only [afterSyscall, Host.Outcome.next.injEq] at h; exact .inr (.inr ⟨ad, rfl, h.symm⟩)

/-! ## Every instruction -/

/-- The instructions other than ECALL, EBREAK and the placeholders commit one yield and nothing else. -/
def Instr.yield : Instr → State → Option Yield
  | .add rd rs1 rs2, s => some { write := some (rd, s.reg rs1 + s.reg rs2) }
  | .sub rd rs1 rs2, s => some { write := some (rd, s.reg rs1 - s.reg rs2) }
  | .xor rd rs1 rs2, s => some { write := some (rd, s.reg rs1 ^^^ s.reg rs2) }
  | .addi rd rs1 imm, s => some { write := some (rd, s.reg rs1 + immI imm) }
  | .slli rd rs1 shamt, s => some { write := some (rd, shiftLeft (s.reg rs1) shamt) }
  | .beq rs1 rs2 raw, s =>
      some { target := if condEq (s.reg rs1) (s.reg rs2) then some (s.pc + branchOffset raw) else none }
  | .bne rs1 rs2 raw, s =>
      some { target := if condNe (s.reg rs1) (s.reg rs2) then some (s.pc + branchOffset raw) else none }
  | .blt rs1 rs2 raw, s =>
      some { target := if condLt (s.reg rs1) (s.reg rs2) then some (s.pc + branchOffset raw) else none }
  | .bge rs1 rs2 raw, s =>
      some { target := if condGe (s.reg rs1) (s.reg rs2) then some (s.pc + branchOffset raw) else none }
  | .bltu rs1 rs2 raw, s =>
      some { target := if condLtu (s.reg rs1) (s.reg rs2) then some (s.pc + branchOffset raw) else none }
  | .bgeu rs1 rs2 raw, s =>
      some { target := if condGeu (s.reg rs1) (s.reg rs2) then some (s.pc + branchOffset raw) else none }
  | .jal rd raw, s => some { write := some (rd, s.pc + Params.ibytes), target := some (s.pc + jumpOffset raw) }
  | .lui rd imm20, _ => some { write := some (rd, immU imm20) }
  | .auipc rd imm20, s => some { write := some (rd, immU imm20 + s.pc) }
  | .ecall, _ => none
  | .ebreak, _ => none
  | .load _ _ _ _, _ => none
  | .store _ _ _ _, _ => none
  | .fence _ _ _ _, _ => none
  | .jalr _ _ _ _, _ => none

/-- Every way an instruction can answer a next state. -/
theorem exec_cases {i : Instr} {s t : State} (h : exec i s = .next t) :
    (∃ y, Instr.yield i s = some y ∧ t = commit y s) ∨
      (i = .ebreak ∧ t = stop .breakpoint (commit {} s)) ∨
      (∃ f w, formatOf (opcodeOf (encode i)) = some f ∧ f ∈ [Format.load, .store, .fence, .jumpAndLinkRegister] ∧
        w = encode i ∧ t = raise (.notImplemented f w) s) ∨
      (i = .ecall ∧ execEcall s = .next t) := by
  cases i with
  | ecall => exact .inr (.inr (.inr ⟨rfl, h⟩))
  | ebreak => exact .inr (.inl ⟨rfl, by simpa [exec, execEbreak, Params.ebreakAdvancesPc] using h.symm⟩)
  | load imm rs1 f3 rd =>
    refine .inr (.inr (.inl ⟨.load, _, ?_, by simp, rfl, by simpa [exec, execLoad, raiseNotImplemented] using h.symm⟩))
    exact congrArg formatOf (opcodeOf_encodeI rs1 rd f3 _ imm)
  | store imm rs2 rs1 f3 =>
    refine .inr (.inr (.inl ⟨.store, _, ?_, by simp, rfl, by simpa [exec, execStore, raiseNotImplemented] using h.symm⟩))
    exact congrArg formatOf (opcodeOf_encodeS rs2 rs1 f3 _ imm)
  | fence imm rs1 f3 rd =>
    refine .inr (.inr (.inl ⟨.fence, _, ?_, by simp, rfl, by simpa [exec, execFence, raiseNotImplemented] using h.symm⟩))
    exact congrArg formatOf (opcodeOf_encodeI rs1 rd f3 _ imm)
  | jalr imm rs1 f3 rd =>
    refine .inr (.inr (.inl ⟨.jumpAndLinkRegister, _, ?_, by simp, rfl,
      by simpa [exec, execJalr, raiseNotImplemented] using h.symm⟩))
    exact congrArg formatOf (opcodeOf_encodeI rs1 rd f3 _ imm)
  | _ => exact .inl ⟨_, rfl, (Host.Outcome.next.inj h).symm⟩

end Sys2Proof.Machine
end

