-- ==== Sys2Proof/Laws/Memory.lean ====
section
/-! SUPPORT. The laws of memory: reads after writes, and that every operation keeps the canonical form. -/

namespace Sys2Proof.Machine

@[simp] theorem Memory.readByte_nil (a : Nat) : Memory.readByte [] a = Memory.unlistedByte := rfl

theorem Memory.readByte_cons (k : Nat) (v : Byte) (m : Memory) (a : Nat) :
    Memory.readByte ((k, v) :: m) a = if k = a then v else Memory.readByte m a := rfl

theorem Memory.wfFrom_cons (lo a : Nat) (b : Byte) (m : Memory) :
    Memory.wfFrom lo ((a, b) :: m) = true ↔
      lo ≤ a ∧ a < addressSpace ∧ b ≠ Memory.unlistedByte ∧ Memory.wfFrom (a + 1) m = true := by
  simp [Memory.wfFrom, and_assoc]

theorem Memory.wfFrom_mono {lo lo' : Nat} (h : lo' ≤ lo) : ∀ {m : Memory}, Memory.wfFrom lo m = true →
    Memory.wfFrom lo' m = true
  | [], _ => rfl
  | (a, b) :: m, hm => by
      rw [Memory.wfFrom_cons] at hm ⊢
      exact ⟨by omega, hm.2⟩

/-- Below its least address a canonical memory lists nothing. -/
theorem Memory.readByte_below : ∀ {lo a : Nat} {m : Memory}, Memory.wfFrom lo m = true → a < lo →
    Memory.readByte m a = Memory.unlistedByte
  | _, _, [], _, _ => rfl
  | lo, a, (k, v) :: m, hm, ha => by
      rw [Memory.wfFrom_cons] at hm
      rw [Memory.readByte_cons, if_neg (by omega)]
      exact Memory.readByte_below hm.2.2.2 (by omega)

theorem Memory.wfFrom_put {lo a : Nat} {b : Byte} {m : Memory} (hlo : lo ≤ a) (ha : a < addressSpace)
    (hm : Memory.wfFrom (a + 1) m = true) : Memory.wfFrom lo (Memory.put a b m) = true := by
  unfold Memory.put
  split
  · exact Memory.wfFrom_mono (by omega) hm
  · exact (Memory.wfFrom_cons ..).2 ⟨hlo, ha, ‹_›, hm⟩

theorem Memory.wfFrom_writeByte : ∀ {lo a : Nat} {b : Byte} {m : Memory}, lo ≤ a → a < addressSpace →
    Memory.wfFrom lo m = true → Memory.wfFrom lo (Memory.writeByte m a b) = true
  | _, _, _, [], hlo, ha, _ => Memory.wfFrom_put hlo ha rfl
  | lo, a, b, (k, v) :: m, hlo, ha, hm => by
      have h := (Memory.wfFrom_cons ..).1 hm
      unfold Memory.writeByte
      split
      · exact Memory.wfFrom_put hlo ha ((Memory.wfFrom_cons ..).2 ⟨by omega, h.2⟩)
      · split
        · subst a; exact Memory.wfFrom_put hlo ha h.2.2.2
        · exact (Memory.wfFrom_cons ..).2 ⟨h.1, h.2.1, h.2.2.1, Memory.wfFrom_writeByte (by omega) ha h.2.2.2⟩

/-- A byte write keeps the canonical form. -/
theorem Memory.wf_writeByte {a : Nat} {b : Byte} {m : Memory} (ha : a < addressSpace) (hm : m.wf = true) :
    (m.writeByte a b).wf = true :=
  Memory.wfFrom_writeByte (Nat.zero_le _) ha hm

/-- A word write keeps the canonical form. -/
theorem Memory.wf_writeWord {m : Memory} (a w : Word) (hm : m.wf = true) : (m.writeWord a w).wf = true := by
  unfold Memory.writeWord
  exact Memory.wf_writeByte (BitVec.isLt _) (Memory.wf_writeByte (BitVec.isLt _) (Memory.wf_writeByte (BitVec.isLt _)
    (Memory.wf_writeByte (BitVec.isLt _) hm)))

theorem Memory.readByte_put_same {lo a : Nat} {b : Byte} {m : Memory} (hm : Memory.wfFrom lo m = true) (h : a < lo) :
    Memory.readByte (Memory.put a b m) a = b := by
  unfold Memory.put
  split
  · rw [Memory.readByte_below hm h]; exact (‹b = _›).symm
  · simp [Memory.readByte_cons]

theorem Memory.readByte_put_other {a c : Nat} {b : Byte} {m : Memory} (h : c ≠ a) :
    Memory.readByte (Memory.put a b m) c = Memory.readByte m c := by
  unfold Memory.put
  split
  · rfl
  · rw [Memory.readByte_cons, if_neg (fun e => h e.symm)]

theorem Memory.readByte_writeByte_same_from : ∀ {lo a : Nat} {b : Byte} {m : Memory}, Memory.wfFrom lo m = true →
    Memory.readByte (Memory.writeByte m a b) a = b
  | _, _, _, [], _ => Memory.readByte_put_same (lo := _ + 1) rfl (Nat.lt_succ_self _)
  | lo, a, b, (k, v) :: m, hm => by
      have h := (Memory.wfFrom_cons ..).1 hm
      unfold Memory.writeByte
      split
      · exact Memory.readByte_put_same (lo := k) ((Memory.wfFrom_cons ..).2 ⟨Nat.le_refl _, h.2⟩) ‹_›
      · split
        · subst a; exact Memory.readByte_put_same h.2.2.2 (Nat.lt_succ_self _)
        · rw [Memory.readByte_cons, if_neg (by omega)]
          exact Memory.readByte_writeByte_same_from h.2.2.2

/-- A read of the byte just written. -/
theorem Memory.readByte_writeByte_same {a : Nat} {b : Byte} {m : Memory} (hm : m.wf = true) :
    (m.writeByte a b).readByte a = b :=
  Memory.readByte_writeByte_same_from hm

/-- Every other byte reads as before. -/
theorem Memory.readByte_writeByte_other : ∀ {a c : Nat} {b : Byte} {m : Memory}, c ≠ a →
    Memory.readByte (Memory.writeByte m a b) c = Memory.readByte m c
  | _, _, _, [], h => Memory.readByte_put_other h
  | a, c, b, (k, v) :: m, h => by
      unfold Memory.writeByte
      split
      · exact Memory.readByte_put_other h
      · split
        · subst a
          rw [Memory.readByte_put_other h, Memory.readByte_cons, if_neg (fun e => h e.symm)]
        · rw [Memory.readByte_cons, Memory.readByte_cons]
          split
          · rfl
          · exact Memory.readByte_writeByte_other h

theorem spanInRange_iff (rs : List Region) (a n : Nat) :
    spanInRange rs a n = true ↔ a + n ≤ addressSpace ∧ ∀ k, k < n → inRegions rs (a + k) = true := by
  simp [spanInRange, List.all_eq_true]

/-- The one-byte read, by the region test of that byte alone. -/
theorem memReadByte_inRange {rs : List Region} {m : Memory} {a : Word} (h : inRegions rs a.toNat = true) :
    memReadByte rs m a = .byte (m.readByte a.toNat) := by
  have : spanInRange rs a.toNat 1 = true :=
    (spanInRange_iff ..).2 ⟨a.isLt, fun k hk => by obtain rfl : k = 0 := by omega
                                                   exact h⟩
  simp [memReadByte, this]

theorem memReadByte_outOfRange {rs : List Region} {m : Memory} {a : Word} (h : inRegions rs a.toNat = false) :
    memReadByte rs m a = .outOfRange a := by
  have : spanInRange rs a.toNat 1 = false := by
    rw [Bool.eq_false_iff, ne_eq, spanInRange_iff]
    intro ⟨_, hk⟩
    simpa [h] using hk 0 (by omega)
  simp [memReadByte, this]

/-- The fetch never checks alignment (20_memory.md R44). -/
theorem memFetchWord_eq (rs : List Region) (m : Memory) (a : Word) :
    memFetchWord rs m a =
      if spanInRange rs a.toNat 4 = true then
        .word (wordOfBytes (m.readByte a.toNat) (m.readByte (a.toNat + 1)) (m.readByte (a.toNat + 2))
          (m.readByte (a.toNat + 3)))
      else .outOfRange a := by
  simp [memFetchWord, Params.fetchAlignFault]

/-- The bytes of a word in memory order, put together again, are the word. -/
theorem wordOfBytes_byteOfWord (w : Word) :
    wordOfBytes (byteOfWord w 0) (byteOfWord w 1) (byteOfWord w 2) (byteOfWord w 3) = w := by
  apply BitVec.eq_of_getLsbD_eq
  intro i hi
  simp only [wordOfBytes, byteOfWord, BitVec.getLsbD_append, BitVec.getLsbD_extractLsb']
  interval_cases i <;> simp

end Sys2Proof.Machine
end

