-- ==== Sys2Proof/Laws/PerInstr.lean ====
section
/-! SUPPORT. Statements about every instruction as syntax, one lemma per constructor: the canonical word of an instruction
lies in the row of the opcode map that bears its mnemonic (30_encoding.md R76). -/

namespace Sys2Proof.Laws.MatchesOwnRow

/-- The instruction's own row selects its canonical word. -/
def Statement (i : Instr) : Prop := ∃ r ∈ opcodeTable, r.mnemonic = i.mnemonic ∧ r.selects (encode i) = true

/-- The row at position `k` of the table is the one. -/
theorem of_row {i : Instr} (k : Nat) (h : k < opcodeTable.length) (hm : opcodeTable[k].mnemonic = i.mnemonic)
    (hs : encode i &&& opcodeTable[k].mask = opcodeTable[k].pattern) : Statement i :=
  ⟨opcodeTable[k], List.getElem_mem h, hm, by simp [OpcodeRow.selects, hs]⟩

theorem add (rd rs1 rs2 : RegIdx) : Statement (.add rd rs1 rs2) := of_row 0 (by decide) rfl (encodeR_key ..)
theorem sub (rd rs1 rs2 : RegIdx) : Statement (.sub rd rs1 rs2) := of_row 1 (by decide) rfl (encodeR_key ..)
theorem xor (rd rs1 rs2 : RegIdx) : Statement (.xor rd rs1 rs2) := of_row 2 (by decide) rfl (encodeR_key ..)
theorem addi (rd rs1 : RegIdx) (imm : BitVec 12) : Statement (.addi rd rs1 imm) :=
  of_row 3 (by decide) rfl (encodeI_key ..)
theorem slli (rd rs1 : RegIdx) (shamt : BitVec 5) : Statement (.slli rd rs1 shamt) :=
  of_row 4 (by decide) rfl (encodeI_key ..)
theorem beq (rs1 rs2 : RegIdx) (raw : BitVec 12) : Statement (.beq rs1 rs2 raw) :=
  of_row 5 (by decide) rfl (encodeB_key ..)
theorem bne (rs1 rs2 : RegIdx) (raw : BitVec 12) : Statement (.bne rs1 rs2 raw) :=
  of_row 6 (by decide) rfl (encodeB_key ..)
theorem blt (rs1 rs2 : RegIdx) (raw : BitVec 12) : Statement (.blt rs1 rs2 raw) :=
  of_row 7 (by decide) rfl (encodeB_key ..)
theorem bge (rs1 rs2 : RegIdx) (raw : BitVec 12) : Statement (.bge rs1 rs2 raw) :=
  of_row 8 (by decide) rfl (encodeB_key ..)
theorem bltu (rs1 rs2 : RegIdx) (raw : BitVec 12) : Statement (.bltu rs1 rs2 raw) :=
  of_row 9 (by decide) rfl (encodeB_key ..)
theorem bgeu (rs1 rs2 : RegIdx) (raw : BitVec 12) : Statement (.bgeu rs1 rs2 raw) :=
  of_row 10 (by decide) rfl (encodeB_key ..)
theorem jal (rd : RegIdx) (raw : BitVec 20) : Statement (.jal rd raw) :=
  of_row 11 (by decide) rfl ((opcode_key _).trans (by simp only [encode, opcodeOf_encodeJ]; rfl))
theorem lui (rd : RegIdx) (imm20 : BitVec 20) : Statement (.lui rd imm20) :=
  of_row 12 (by decide) rfl ((opcode_key _).trans (by simp only [encode, opcodeOf_encodeU]; rfl))
theorem auipc (rd : RegIdx) (imm20 : BitVec 20) : Statement (.auipc rd imm20) :=
  of_row 13 (by decide) rfl ((opcode_key _).trans (by simp only [encode, opcodeOf_encodeU]; rfl))
theorem ecall : Statement .ecall := of_row 14 (by decide) rfl rfl
theorem ebreak : Statement .ebreak := of_row 15 (by decide) rfl rfl
theorem load (imm : BitVec 12) (rs1 : RegIdx) (funct3 : BitVec 3) (rd : RegIdx) : Statement (.load imm rs1 funct3 rd) :=
  of_row 16 (by decide) rfl ((opcode_key _).trans (by simp only [encode, opcodeOf_encodeI]; rfl))
theorem store (imm : BitVec 12) (rs2 rs1 : RegIdx) (funct3 : BitVec 3) : Statement (.store imm rs2 rs1 funct3) :=
  of_row 17 (by decide) rfl ((opcode_key _).trans (by simp only [encode, opcodeOf_encodeS]; rfl))
theorem fence (imm : BitVec 12) (rs1 : RegIdx) (funct3 : BitVec 3) (rd : RegIdx) :
    Statement (.fence imm rs1 funct3 rd) :=
  of_row 18 (by decide) rfl ((opcode_key _).trans (by simp only [encode, opcodeOf_encodeI]; rfl))
theorem jalr (imm : BitVec 12) (rs1 : RegIdx) (funct3 : BitVec 3) (rd : RegIdx) : Statement (.jalr imm rs1 funct3 rd) :=
  of_row 19 (by decide) rfl ((opcode_key _).trans (by simp only [encode, opcodeOf_encodeI]; rfl))

end Sys2Proof.Laws.MatchesOwnRow
end

