-- ==== Sys2Proof/Laws/Step.lean ====
section
/-! SUPPORT. What a step can do, said once: every next state of `step` is one of four kinds. -/

namespace Sys2Proof.Machine

@[simp] theorem step_stopped {s : State} {c : StopCause} (h : s.run = .stopped c) : step s = .fault (.stopped c) := by
  simp [step, h]

theorem step_running {s : State} (h : s.run = .running) : step s = cycle s := by
  simp [step, h]

/-- The fetch's answers: the word of the four bytes at `pc`, or `pc` itself as the faulting address. -/
theorem fetch_cases (s : State) :
    (spanInRange s.env.regions s.pc.toNat 4 = true ∧ ∃ w, fetch s = .word w) ∨
      (spanInRange s.env.regions s.pc.toNat 4 = false ∧ fetch s = .outOfRange s.pc) := by
  simp only [fetch, memFetchWord_eq]
  cases spanInRange s.env.regions s.pc.toNat 4 <;> simp

/-- A running core that fetched an instruction executes it. -/
theorem step_instr {s : State} {w : Word} {i : Instr} (hr : s.run = .running) (hf : fetch s = .word w)
    (hi : route w = .instr i) : step s = exec i s := by
  simp [step, hr, cycle, hf, dispatch, hi]

/-- Every way a step can answer a next state. -/
theorem step_cases {s t : State} (h : step s = .next t) :
    s.run = .running ∧
      ((fetch s = .outOfRange s.pc ∧ spanInRange s.env.regions s.pc.toNat 4 = false ∧
          t = raise (.memoryFault s.pc) s) ∨
        ∃ w, fetch s = .word w ∧
          ((∃ op, route w = .unrecognized op w ∧ t = raise (.unrecognizedFormat op w) s) ∨
            (∃ f k, route w = .unmatched f k ∧ t = raise (.unmatchedOperation f k) s) ∨
            ∃ i, route w = .instr i ∧ exec i s = .next t)) := by
  cases hr : s.run with
  | stopped c => simp [hr] at h
  | running =>
    refine ⟨rfl, ?_⟩
    rw [step_running hr] at h
    unfold cycle at h
    obtain ⟨-, w, hw⟩ | ⟨hs, hw⟩ := fetch_cases s
    · refine .inr ⟨w, hw, ?_⟩
      rw [hw] at h
      cases hi : route w with
      | instr i => exact .inr (.inr ⟨i, rfl, by simpa [hi, dispatch] using h⟩)
      | unmatched f k => exact .inr (.inl ⟨f, k, rfl, by simpa [hi, dispatch] using h.symm⟩)
      | unrecognized op v =>
        have hv : v = w := by
          unfold route at hi
          split at hi
          · simp only [Routed.unrecognized.injEq] at hi; exact hi.2.symm
          · split at hi <;> simp at hi
        subst hv
        exact .inl ⟨op, rfl, by simpa [hi, dispatch] using h.symm⟩
    · rw [hw] at h
      exact .inl ⟨hw, hs, by simpa using h.symm⟩

end Sys2Proof.Machine
end

