-- ==== Sys2Proof/Tests/Slice0.lean ====
section
/-! SUPPORT. The model's own tests. Expected values are those of spec/95_test_vectors.md, whose row is named beside each
test, or of the rule named there. The witnesses at the end meet the hypotheses of the statements. -/

namespace Sys2Proof.Tests

open Sys2Proof Sys2Proof.Machine Sys2Proof.Claims

/-! ## Well-formedness: one ill-formed term for each check -/

/-- V-R13: funct7 0000001. -/
theorem test_illFormed_registerRegister_funct7 : (Fields.registerRegister 1 2 1 0 3).wellFormed = false := by decide
/-- V-R12: funct3 111. -/
theorem test_illFormed_registerRegister_funct3 : (Fields.registerRegister 0 2 1 7 3).wellFormed = false := by decide
/-- V-R14: XOR needs funct7 0000000. -/
theorem test_illFormed_registerRegister_pair : (Fields.registerRegister 0x20 2 1 4 3).wellFormed = false := by decide
/-- V-I20. -/
theorem test_illFormed_immediate : (Fields.immediate 0x7FF 6 2 5).wellFormed = false := by decide
/-- V-B20. -/
theorem test_illFormed_branch_010 : (Fields.branch 0 0 2 1 2 4 0).wellFormed = false := by decide
/-- V-B21. -/
theorem test_illFormed_branch_011 : (Fields.branch 0 0 2 1 3 4 0).wellFormed = false := by decide
/-- V-DEC27. -/
theorem test_illFormed_unrecognized : (Fields.unrecognized 0x7F).wellFormed = false := by decide
/-- V-DEC1: the check accepts an operation's key. -/
theorem test_wellFormed_add : (Fields.registerRegister 0 2 1 0 3).wellFormed = true := by decide

/-! ## Decoding: the words of V-DEC1 to V-DEC28, in binary, field by field as the layouts give them -/

/-- V-DEC1, layout R. -/
theorem test_decode_add : route 0b0000000_00010_00001_000_00011_0110011#32 = .instr (.add 3 1 2) := by decide
/-- V-DEC2. -/
theorem test_decode_sub : route 0b0100000_00010_00001_000_00011_0110011#32 = .instr (.sub 3 1 2) := by decide
/-- V-DEC3. -/
theorem test_decode_xor : route 0b0000000_00010_00001_100_00011_0110011#32 = .instr (.xor 3 1 2) := by decide
/-- V-DEC5, layout I. -/
theorem test_decode_addi : route 0b011111111111_00110_000_00101_0010011#32 = .instr (.addi 5 6 0x7FF) := by decide
/-- V-DEC7. -/
theorem test_decode_slli : route 0b0000000_11111_00110_001_00101_0010011#32 = .instr (.slli 5 6 31) := by decide
/-- V-DEC8, layout B. -/
theorem test_decode_beq : route 0b0_000000_00010_00001_000_0100_0_1100011#32 = .instr (.beq 1 2 0x004) := by decide
/-- V-DEC9. -/
theorem test_decode_bne : route 0b1_111111_00010_00001_001_1110_1_1100011#32 = .instr (.bne 1 2 0xFFE) := by decide
/-- V-DEC10. -/
theorem test_decode_blt : route 0b0_000000_00010_00001_100_1000_0_1100011#32 = .instr (.blt 1 2 0x008) := by decide
/-- V-DEC11. -/
theorem test_decode_bge : route 0b1_111111_00010_00001_101_1100_1_1100011#32 = .instr (.bge 1 2 0xFFC) := by decide
/-- V-DEC12: imm11 alone above the low slices. -/
theorem test_decode_bltu : route 0b0_111111_00010_00001_110_1111_1_1100011#32 = .instr (.bltu 1 2 0x7FF) := by decide
/-- V-DEC13: imm12 alone. -/
theorem test_decode_bgeu : route 0b1_000000_00010_00001_111_0000_0_1100011#32 = .instr (.bgeu 1 2 0x800) := by decide
/-- V-DEC15, layout J. -/
theorem test_decode_jal : route 0b1_1111111110_1_11111111_00000_1101111#32 = .instr (.jal 0 0xFFFFE) := by decide
/-- V-DEC18: imm11 alone. -/
theorem test_decode_jal_imm11 : route 0b0_0000000000_1_00000000_00001_1101111#32 = .instr (.jal 1 0x00400) := by decide
/-- V-DEC16. -/
theorem test_decode_jal_imm12_19 : route 0b0_1111111111_1_11111111_00001_1101111#32 = .instr (.jal 1 0x7FFFF) := by decide
/-- V-DEC19, layout U. -/
theorem test_decode_lui : route 0b00010010001101000101_00101_0110111#32 = .instr (.lui 5 0x12345) := by decide
/-- V-DEC20. -/
theorem test_decode_auipc : route 0b11111111111111111111_00101_0010111#32 = .instr (.auipc 5 0xFFFFF) := by decide
/-- V-DEC21. -/
theorem test_decode_ecall : route 0b000000000000_00000_000_00000_1110011#32 = .instr .ecall := by decide
/-- V-DEC22. -/
theorem test_decode_ebreak : route 0b000000000001_00000_000_00000_1110011#32 = .instr .ebreak := by decide
/-- V-DEC23. -/
theorem test_decode_load : route 0b000000000000_00110_010_00101_0000011#32 = .instr (.load 0 6 2 5) := by decide
/-- V-DEC24, layout S. -/
theorem test_decode_store : route 0b1111111_00101_00110_010_11100_0100011#32 = .instr (.store 0xFFC 5 6 2) := by decide
/-- V-DEC25. -/
theorem test_decode_fence : route 0b000011111111_00000_000_00000_0001111#32 = .instr (.fence 0x0FF 0 0 0) := by decide
/-- V-DEC26. -/
theorem test_decode_jalr : route 0b000000000000_00001_000_00000_1100111#32 = .instr (.jalr 0 1 0 0) := by decide
/-- V-DEC27. -/
theorem test_decode_allOnes : route 0xFFFFFFFF#32 = .unrecognized 0x7F 0xFFFFFFFF := by decide
/-- V-DEC28. -/
theorem test_decode_zero : route 0#32 = .unrecognized 0x00 0 := by decide
/-- V-R13. -/
theorem test_decode_mul_unmatched : route 0x022081B3#32 = .unmatched .registerRegister 0x02000033 := by decide
/-- V-I19. -/
theorem test_decode_srli_unmatched : route 0x00135293#32 = .unmatched .immediate 0x00005013 := by decide
/-- V-B21. -/
theorem test_decode_branch_unmatched : route 0x0020B463#32 = .unmatched .branch 0x00003063 := by decide
/-- The decoder returns the fields of the matching layout, here the branch slices of V-DEC12. -/
theorem test_decodeFields_branch : decodeFields 0x7E20EFE3#32 = .branch 0 0x3F 2 1 6 0xF 1 := by decide
/-- The jump slices of V-DEC17. -/
theorem test_decodeFields_jump : decodeFields 0x800000EF#32 = .jumpAndLink 1 0 0 0 1 := by decide
/-- A table row's word with zero operands. -/
theorem test_decodeTableWord : decodeTableWord 32 0x40000033 = some (.sub 0 0 0) := by decide
/-- A word of no row. -/
theorem test_decodeTableWord_none : decodeTableWord 32 0x00002013 = none := by decide
/-- The row a word belongs to is one and the first eleven rows have their own mnemonic (30_encoding.md R76). -/
theorem test_opcodeTable_rows : opcodeTable.length = 20 ∧ (opcodeTable.map (fun r => r.mnemonic)).Nodup := by decide

/-! ## Shared operations -/

/-- V-S1, V-S4, V-S5, V-S7, V-S8 (the reference values of 40_decode_dispatch.md R91 among them). -/
theorem test_sext : sext 12 0xFFF#32 = 0xFFFFFFFF ∧ sext 12 0x7FF#32 = 2047 ∧ sext 12 0#32 = 0 ∧
    sext 12 0x800#32 = 0xFFFFF800 ∧ sext 12 0x1FFF#32 = 0xFFFFFFFF ∧ sext 20 0x7FFFF#32 = 524287 ∧
    sext 20 0x80000#32 = 0xFFF80000 := by decide
/-- The zero extension of the same low bits. -/
theorem test_zext : zext 12 0x1FFF#32 = 0xFFF := by decide
/-- The S-immediate of V-DEC24. -/
theorem test_immS : immS 0xFFC = 0xFFFFFFFC := by decide
/-- V-C5 and V-C4, on the four ordered conditions. -/
theorem test_conditions : condLt 0x80000000 0 = true ∧ condGe 0x80000000 0 = false ∧ condLtu 1 0xFFFFFFFF = true ∧
    condGeu 1 0xFFFFFFFF = false := by decide
/-- V-E1, V-E3 and V-E4: `42`, `-6`, `-2147483648`; and 0 (minimal digits, D21). -/
theorem test_decimalText : decimalText 42 = [52, 50] ∧ decimalText 0xFFFFFFFA = [45, 54] ∧
    decimalText 0x80000000 = [45, 50, 49, 52, 55, 52, 56, 51, 54, 52, 56] ∧ decimalText 0 = [48] := by decide
/-- V-E11: only `a1[7:0]`. -/
theorem test_syscall_char : syscall 1011 0x141 Env.initial = .answered (.ok none) (Env.initial.print [0x41]) := by
  decide
/-- V-E9, the scan's answer: an address out of range, nothing read. -/
theorem test_scan_outOfRange : scanString [] [] 5 0x9000 = .outOfRange [] 0x9000 := by decide
/-- A scan past the highest address goes on at 0 (the model's reading, notes/assumptions/8.md). -/
theorem test_scan_wraps : scanString [⟨.data, 0, 2 ^ 32⟩] [(0xFFFFFFFF, 0x41)] 5 0xFFFFFFFF = .nul [0x41] := by decide
/-- The codes of D10. -/
theorem test_codes : [StopCause.breakpoint, .unrecognizedFormat, .unmatchedOperation, .notImplemented, .memoryFault].map
    StopCause.code = [0, 1, 2, 3, 4] ∧ (Diagnostic.unknownSyscall 7).code = 5 := by decide
/-- Little-endian (20_memory.md R43): the word of P3 at 0x2000 is stored `48 69 00 00`, and zero bytes are unlisted. -/
theorem test_writeWord : Memory.writeWord [] 0x2000 0x00006948 = [(0x2000, 0x48), (0x2001, 0x69)] := by decide
/-- Writing the unlisted value removes the entry. -/
theorem test_writeByte_removes : Memory.writeByte [(1, 5), (2, 6), (3, 7)] 2 0 = [(1, 5), (3, 7)] := by decide

/-! ## Reset -/

/-- V-T1. -/
theorem test_reset : State.reset.pc = 0x1000 ∧ State.reset.reg 2 = 0x7FFC ∧ State.reset.reg 3 = 0x2000 ∧
    (∀ r : RegIdx, r ≠ 2 → r ≠ 3 → State.reset.reg r = 0) ∧ State.reset.run = .running := by decide
/-- V-T3. -/
theorem test_create_wraps : (State.create ⟨0, 0, 0⟩ Env.initial).reg 2 = 0xFFFFFFFC := by decide
/-- The memory of reset is canonical. -/
theorem test_reset_memory : State.reset.env.mem.wf = true := by decide

/-! ## One step -/

/-- These registers, all others zero. -/
def regs (l : List (RegIdx × Word)) : RegFile := l.foldl (fun f p => f.write p.1 p.2) RegFile.zero

/-- A running core at `pc` with these registers, over the environment of reset. -/
def bare (pc : Word) (l : List (RegIdx × Word)) : State :=
  { pc := pc, x := regs l, run := .running, env := Env.initial }

/-- The same with the word `w` at `pc`. -/
def at_ (pc : Word) (w : Nat) (l : List (RegIdx × Word)) : State := (bare pc l).withFetchWord 32 w

/-- What an observer of the next state sees; nothing where there is none. -/
def sees {α : Type} (f : State → α) : Result → Option α
  | .next t => some (f t)
  | .fault _ => none
  | .refused _ => none

/-- The parts of a state that a computing instruction may not touch, and `pc`. -/
def coreOf (t : State) : Word × RegFile × Run := (t.pc, t.x, t.run)

/-- A step of the word `w` at `pc` leaves the core with `pc'` and the registers `l'`, running. -/
abbrev Runs1 (pc : Word) (w : Nat) (l : List (RegIdx × Word)) (pc' : Word) (l' : List (RegIdx × Word)) : Prop :=
  sees coreOf (step (at_ pc w l)) = some (pc', regs l', .running)

/-- V-R1. -/
theorem test_add : Runs1 0x1000 0x002081B3 [(1, 5), (2, 7)] 0x1004 [(1, 5), (2, 7), (3, 12)] := by decide
/-- V-R10: rd = rs1. -/
theorem test_add_sameReg : Runs1 0x1000 0x00530333 [(6, 5), (5, 4)] 0x1004 [(6, 9), (5, 4)] := by decide
/-- V-R2. -/
theorem test_sub : Runs1 0x1000 0x402081B3 [(1, 3), (2, 9)] 0x1004 [(1, 3), (2, 9), (3, 0xFFFFFFFA)] := by decide
/-- V-R9. -/
theorem test_sub_allSame : Runs1 0x1000 0x403181B3 [(3, 0x4D2)] 0x1004 [] := by decide
/-- V-R7. -/
theorem test_xor : Runs1 0x1000 0x0020C1B3 [(1, 0x12345678), (2, 0xFFFFFFFF)] 0x1004
    [(1, 0x12345678), (2, 0xFFFFFFFF), (3, 0xEDCBA987)] := by decide
/-- V-I2. -/
theorem test_addi : Runs1 0x1000 0xFFF30293 [] 0x1004 [(5, 0xFFFFFFFF)] := by decide
/-- V-I10: a write to x0 is lost. -/
theorem test_addi_x0 : Runs1 0x1000 0x00530013 [(6, 1)] 0x1004 [(6, 1)] := by decide
/-- V-I15. -/
theorem test_slli : Runs1 0x1000 0x00131293 [(6, 0x80000001)] 0x1004 [(6, 0x80000001), (5, 2)] := by decide
/-- V-I16: `w[31:25]` is ignored. -/
theorem test_slli_ignoredBits : Runs1 0x1000 0x40431293 [(6, 3)] 0x1004 [(6, 3), (5, 0x30)] := by decide
/-- V-B1. -/
theorem test_beq : Runs1 0x1000 0x00208463 [(1, 7), (2, 7)] 0x1008 [(1, 7), (2, 7)] := by decide
/-- V-B2. -/
theorem test_beq_notTaken : Runs1 0x1000 0x00208463 [(1, 7), (2, 8)] 0x1004 [(1, 7), (2, 8)] := by decide
/-- V-B3. -/
theorem test_bne : Runs1 0x1000 0xFE209EE3 [(1, 1), (2, 2)] 0x0FFC [(1, 1), (2, 2)] := by decide
/-- V-B4. -/
theorem test_bne_notTaken : Runs1 0x1000 0xFE209EE3 [(1, 2), (2, 2)] 0x1004 [(1, 2), (2, 2)] := by decide
/-- V-B5. -/
theorem test_blt : Runs1 0x2000 0x0020C863 [(1, 0xFFFFFFFF), (2, 1)] 0x2010 [(1, 0xFFFFFFFF), (2, 1)] := by decide
/-- V-B13, the regression test the source asks for. -/
theorem test_blt_fullWidth : Runs1 0x2000 0x0020C863 [(1, 0x10), (2, 1)] 0x2004 [(1, 0x10), (2, 1)] := by decide
/-- V-B17, likewise. -/
theorem test_bge_fullWidth : Runs1 0x2000 0xFE20DCE3 [(1, 0x10), (2, 1)] 0x1FF8 [(1, 0x10), (2, 1)] := by decide
/-- V-B8. -/
theorem test_bge_notTaken : Runs1 0x2000 0xFE20DCE3 [(1, 0x80000000)] 0x2004 [(1, 0x80000000)] := by decide
/-- V-B9: the target is not a multiple of 4. -/
theorem test_bltu : Runs1 0x2000 0x7E20EFE3 [(1, 1), (2, 0xFFFFFFFF)] 0x2FFE [(1, 1), (2, 0xFFFFFFFF)] := by decide
/-- V-B10. -/
theorem test_bltu_notTaken : Runs1 0x2000 0x7E20EFE3 [(1, 0xFFFFFFFF), (2, 1)] 0x2004 [(1, 0xFFFFFFFF), (2, 1)] := by
  decide
/-- V-B11. -/
theorem test_bgeu : Runs1 0x2000 0x8020F063 [(1, 5), (2, 5)] 0x1000 [(1, 5), (2, 5)] := by decide
/-- V-B12. -/
theorem test_bgeu_notTaken : Runs1 0x2000 0x8020F063 [(1, 4), (2, 5)] 0x2004 [(1, 4), (2, 5)] := by decide
/-- V-J5: the target wraps. -/
theorem test_jal : Runs1 0x1000 0x800000EF [] 0xFFF01000 [(1, 0x1004)] := by decide
/-- V-J9: link and target wrap. -/
theorem test_jal_wraps : Runs1 0xFFFFFFFC 0x008000EF [(1, 9)] 4 [] := by decide
/-- V-U2. -/
theorem test_lui : Runs1 0x1000 0x123452B7 [(5, 0xFFFFFFFF)] 0x1004 [(5, 0x12345000)] := by decide
/-- V-Z3. -/
theorem test_lui_x0 : Runs1 0x1000 0xFFFFF037 [] 0x1004 [] := by decide
/-- V-U7. -/
theorem test_auipc : Runs1 0xFFFFF000 0x00001297 [(5, 7)] 0xFFFFF004 [] := by decide
/-- V-U8. -/
theorem test_auipc_self : Runs1 0x1020 0x00000417 [] 0x1024 [(8, 0x1020)] := by decide

/-- V-E7: the string at 0x2000 is `48 69 00`. -/
theorem test_ecall_string :
    sees (fun t => (coreOf t, t.env.output, t.env.errors))
      (step (State.withFetchWord
        { pc := 0x1000, x := regs [(10, 100), (11, 0x2000)], run := .running,
          env := { Env.initial with mem := Memory.writeWord [] 0x2000 0x00006948 } } 32 0x00000073)) =
    some ((0x1004, regs [(10, 100), (11, 0x2000)], .running), [0x48, 0x69], []) := by decide
/-- V-E6: the number is compared at full width, and an unknown one is not fatal. -/
theorem test_ecall_unknown :
    sees (fun t => (coreOf t, t.env.output, t.env.errors)) (step (at_ 0x1000 0x00000073 [(10, 0x00010001)])) =
    some ((0x1004, regs [(10, 0x00010001)], .running), [], [.unknownSyscall 0x00010001]) := by decide
/-- V-E12. -/
theorem test_ebreak : sees (fun t => (coreOf t, t.env.errors)) (step (at_ 0x1000 0x00100073 [(5, 1)])) =
    some ((0x1004, regs [(5, 1)], .stopped .breakpoint), []) := by decide
/-- V-E14: a system word with bit 20 set; V-E17: the advance wraps. -/
theorem test_ebreak_wraps : sees coreOf (step (at_ 0xFFFFFFFC 0x301312F3 [])) = some (0, regs [], .stopped .breakpoint) := by
  decide

/-- A step of the word `w` at 0x1000 with `x[6] = 3` stops with exactly the record `f`. -/
abbrev Stops (w : Nat) (f : Fatal) : Prop :=
  sees (fun t => (coreOf t, t.env.errors, t.env.output)) (step (at_ 0x1000 w [(6, 3)])) =
    some ((0x1000, regs [(6, 3)], .stopped f.cause), [.fatal f], [])

/-- V-X1. -/
theorem test_stop_allOnes : Stops 0xFFFFFFFF (.unrecognizedFormat 0x7F 0xFFFFFFFF) := by decide
/-- V-R14. -/
theorem test_stop_unmatched : Stops 0x4020C1B3 (.unmatchedOperation .registerRegister 0x40004033) := by decide
/-- V-X3. -/
theorem test_stop_load : Stops 0x00032283 (.notImplemented .load 0x00032283) := by decide
/-- V-X4. -/
theorem test_stop_store : Stops 0x00532023 (.notImplemented .store 0x00532023) := by decide
/-- V-X7. -/
theorem test_stop_fence : Stops 0x0000100F (.notImplemented .fence 0x0000100F) := by decide
/-- V-X6. -/
theorem test_stop_jalr : Stops 0x00008067 (.notImplemented .jumpAndLinkRegister 0x00008067) := by decide
/-- V-X11: no region answers. -/
theorem test_stop_fetch : sees (fun t => (coreOf t, t.env.errors)) (step (bare 0x9000 [])) =
    some ((0x9000, regs [], .stopped .memoryFault), [.fatal (.memoryFault 0x9000)]) := by decide
/-- V-X12: the four bytes would run past the top of the address space, whatever the regions are. -/
theorem test_stop_fetch_top :
    sees (fun t => t.env.errors)
      (step { bare 0xFFFFFFFE [] with env := { Env.initial with regions := [⟨.text, 0, 2 ^ 33⟩] } }) =
    some [.fatal (.memoryFault 0xFFFFFFFE)] := by decide
/-- V-P1. -/
theorem test_pc_wraps : Runs1 0xFFFFFFFC 0x00000013 [] 0 [] := by decide
/-- A stopped core takes no step (10_state.md R33). -/
theorem test_stopped : sees coreOf (step ((at_ 0x1000 0x00000013 []).setRun (.stopped .breakpoint))) = none := by decide
/-- V-T4: reset in a stopped state. -/
theorem test_create_again : (match serve (.create Params.layout) (.present (State.reset.setRun (.stopped .notImplemented))) with
    | .next (.present s) => decide (s = State.reset)
    | .next (.absent _) => false
    | .fault _ => false
    | .refused _ => false) = true := by decide

/-! ## Witnesses: concrete states and operands that meet the hypotheses of a statement

A statement without hypotheses needs none: WrittenWordsDecode, DecodeOfEncodeIsIdentity, OpcodeMapAgreesWithRouter,
PlaceholderInstructionsComplete, ResetValues, CreateAndDestroy. For each other statement `<Name>` there is `witness_<Name>`,
with one conjunct for each of its clauses that has hypotheses, at a boundary value where there is one. -/

/-- A next state of which a test holds. -/
theorem next_of {r : Result} {p : State → Bool} (h : sees p r = some true) : ∃ t, r = .next t ∧ p t = true := by
  cases r <;> simp_all [sees]

/-- An address that a region covers. -/
theorem mapped_of {s : State} {a : Nat} (h : inRegions s.env.regions a = true) : Mapped s a := by
  simpa [inRegions, Region.covers, Mapped] using h

/-- An address that no region covers. -/
theorem not_mapped_of {s : State} {a : Nat} (h : inRegions s.env.regions a = false) : ¬Mapped s a := by
  simpa [inRegions, Region.covers, Mapped] using h

theorem witness_EncodeOfDecodeClearsIgnoredBits :
    (∃ w i, route w = .instr i ∧ w ≠ w &&& keptBits i) ∧ (∃ w i, route w = .instr i ∧ keptBits i = BitVec.allOnes 32) :=
  ⟨⟨0xFFF31293, .slli 5 6 31, by decide⟩, ⟨0xFFFFFFEF, .jal 31 0xFFFFF, by decide⟩⟩

theorem witness_IgnoredBitsSelectNothing :
    (∃ w v : Word, w &&& 0x0000707F#32 = 0x00001013#32 ∧ w &&& 0x01FFFFFF#32 = v &&& 0x01FFFFFF#32 ∧ v ≠ w) ∧
    (∃ w v : Word, opcodeOf w = 0x73#7 ∧ w &&& 0x0010007F#32 = v &&& 0x0010007F#32 ∧ v ≠ w) ∧
    (∃ w v : Word, w &&& 0x0000707F#32 = 0x00000013#32 ∧ route v = route w) ∧
    (∃ w v : Word, opcodeOf w ∈ [0x03#7, 0x23#7, 0x0F#7, 0x67#7] ∧ opcodeOf v = opcodeOf w ∧ v ≠ w) :=
  ⟨⟨0x40431293, 0x00431293, by decide⟩, ⟨0x300312F3, 0x00000073, by decide⟩, ⟨0xFFF30293, 0xFFF30293, by decide⟩,
    ⟨0x00008067, 0xFFFFFFE7, by decide⟩⟩

theorem witness_SystemOneBitRule : ∃ w : Word, opcodeOf w = 0x73#7 ∧ w ≠ 0x00000073 := ⟨0x10500073, by decide⟩

theorem witness_UnmatchedKeysStop :
    (∃ s w, Fetches s w ∧ opcodeOf w = 0x33#7 ∧
      (funct3Of w, funct7Of w) ∉ [(0b000#3, 0b0000000#7), (0b000#3, 0b0100000#7), (0b100#3, 0b0000000#7)]) ∧
    (∃ s w, Fetches s w ∧ opcodeOf w = 0x13#7 ∧
      funct3Of w ∈ [0b010#3, 0b011#3, 0b100#3, 0b101#3, 0b110#3, 0b111#3]) ∧
    (∃ s w, Fetches s w ∧ opcodeOf w = 0x63#7 ∧ funct3Of w ∈ [0b010#3, 0b011#3]) ∧
    (∃ w f k, route w = .unmatched f k) ∧ (∃ w : Word, opcodeOf w ∈ [0x37#7, 0x17#7, 0x6F#7, 0x73#7]) :=
  ⟨⟨at_ 0x1000 0x4020C1B3 [], 0x4020C1B3, ⟨by decide, by decide⟩, by decide, by decide⟩,
    ⟨at_ 0x1000 0x7FF32293 [], 0x7FF32293, ⟨by decide, by decide⟩, by decide, by decide⟩,
    ⟨at_ 0x1000 0x0020B463 [], 0x0020B463, ⟨by decide, by decide⟩, by decide, by decide⟩,
    ⟨0x0020B463, .branch, 0x00003063, by decide⟩, ⟨0xFFFFFFF3, by decide⟩⟩

theorem witness_UnrecognizedOpcodesStop :
    (∃ s w, Fetches s w ∧ opcodeOf w ∉
      [0x33#7, 0x63#7, 0x13#7, 0x03#7, 0x23#7, 0x37#7, 0x17#7, 0x6F#7, 0x67#7, 0x0F#7, 0x73#7]) ∧
    (∃ w : Word, opcodeOf w ∈
      [0x33#7, 0x63#7, 0x13#7, 0x03#7, 0x23#7, 0x37#7, 0x17#7, 0x6F#7, 0x67#7, 0x0F#7, 0x73#7]) :=
  ⟨⟨at_ 0x1000 0xFFFFFFFF [], 0xFFFFFFFF, ⟨by decide, by decide⟩, by decide⟩, ⟨0xFFFFFFF3, by decide⟩⟩

theorem witness_SignExtensionUnit :
    (∃ n : Nat, 1 ≤ n ∧ n ≤ 32 ∧ n = 1) ∧ (∃ n : Nat, 1 ≤ n ∧ n ≤ 32 ∧ n = 32) ∧
    (∃ n i : Nat, 1 ≤ n ∧ n ≤ 32 ∧ i < n ∧ i = n - 1) ∧ (∃ n i : Nat, 1 ≤ n ∧ n ≤ 32 ∧ n ≤ i ∧ i < 32 ∧ i = n) :=
  ⟨⟨1, by decide⟩, ⟨32, by decide⟩, ⟨12, 11, by decide⟩, ⟨12, 12, by decide⟩⟩

theorem witness_BranchOffsetScaled : ∃ (w : Word) (i : Instr), opcodeOf w = 0x63#7 ∧ route w = .instr i ∧ rawB w = 0x800 :=
  ⟨0x8020F063, .bgeu 1 2 0x800, by decide⟩

theorem witness_JumpOffsetScaled : ∃ w : Word, opcodeOf w = 0x6F#7 ∧ rawJ w = 0x80000 := ⟨0x800000EF, by decide⟩

theorem witness_AddWritesSum : (∃ w : Word, w &&& 0xFE00707F#32 = 0x00000033#32) ∧ (∃ rd : RegIdx, rd ≠ 0) :=
  ⟨⟨0x002081B3, by decide⟩, ⟨1, by decide⟩⟩

theorem witness_SubWritesDifference : (∃ w : Word, w &&& 0xFE00707F#32 = 0x40000033#32) ∧ (∃ rd : RegIdx, rd ≠ 0) :=
  ⟨⟨0x402081B3, by decide⟩, ⟨31, by decide⟩⟩

theorem witness_XorWritesExclusiveOr : (∃ w : Word, w &&& 0xFE00707F#32 = 0x00004033#32) ∧ (∃ i : Nat, i < 32 ∧ i = 31) :=
  ⟨⟨0x0020C1B3, by decide⟩, ⟨31, by decide⟩⟩

theorem witness_AddiWritesSum : (∃ w : Word, w &&& 0x0000707F#32 = 0x00000013#32) ∧ (∃ rd : RegIdx, rd ≠ 0) :=
  ⟨⟨0x80030293, by decide⟩, ⟨31, by decide⟩⟩

theorem witness_SlliShiftsLeft : (∃ w : Word, w &&& 0x0000707F#32 = 0x00001013#32) ∧ (∃ i : Nat, i < 32 ∧ i = 31) :=
  ⟨⟨0xFFF31293, by decide⟩, ⟨31, by decide⟩⟩

theorem witness_EqualityBranches :
    (∃ w : Word, w &&& 0x0000707F#32 = 0x00000063#32) ∧ (∃ w : Word, w &&& 0x0000707F#32 = 0x00001063#32) ∧
    (∃ (s : State) (r r' : RegIdx), s.reg r = s.reg r' ∧ r ≠ r') ∧ (∃ (s : State) (r r' : RegIdx), s.reg r ≠ s.reg r') :=
  ⟨⟨0x00208463, by decide⟩, ⟨0xFE209EE3, by decide⟩, ⟨bare 0 [(1, 7), (2, 7)], 1, 2, by decide⟩,
    ⟨bare 0 [(1, 7), (2, 8)], 1, 2, by decide⟩⟩

theorem witness_SignedBranches :
    (∃ w : Word, w &&& 0x0000707F#32 = 0x00004063#32) ∧ (∃ w : Word, w &&& 0x0000707F#32 = 0x00005063#32) ∧
    (∃ (s : State) (r r' : RegIdx), (s.reg r).toInt < (s.reg r').toInt ∧ (s.reg r').toNat < (s.reg r).toNat) ∧
    (∃ (s : State) (r r' : RegIdx), (s.reg r').toInt ≤ (s.reg r).toInt ∧ (s.reg r).toNat < (s.reg r').toNat) :=
  ⟨⟨0x0020C863, by decide⟩, ⟨0xFE20DCE3, by decide⟩, ⟨bare 0 [(1, 0x80000000), (2, 0x7FFFFFFF)], 1, 2, by decide⟩,
    ⟨bare 0 [(1, 0x7FFFFFFF), (2, 0x80000000)], 1, 2, by decide⟩⟩

theorem witness_UnsignedBranches :
    (∃ w : Word, w &&& 0x0000707F#32 = 0x00006063#32) ∧ (∃ w : Word, w &&& 0x0000707F#32 = 0x00007063#32) ∧
    (∃ (s : State) (r r' : RegIdx), (s.reg r).toNat < (s.reg r').toNat) ∧
    (∃ (s : State) (r r' : RegIdx), (s.reg r').toNat ≤ (s.reg r).toNat ∧ s.reg r = s.reg r') :=
  ⟨⟨0x7E20EFE3, by decide⟩, ⟨0x8020F063, by decide⟩, ⟨bare 0 [(1, 1), (2, 0xFFFFFFFF)], 1, 2, by decide⟩,
    ⟨bare 0 [(1, 5), (2, 5)], 1, 2, by decide⟩⟩

theorem witness_JalLinksAndJumps : (∃ w : Word, w &&& 0x0000007F#32 = 0x0000006F#32) ∧ (∃ rd : RegIdx, rd ≠ 0) :=
  ⟨⟨0xFFFFFFEF, by decide⟩, ⟨1, by decide⟩⟩

theorem witness_LuiWritesUpperImmediate : (∃ w : Word, w &&& 0x0000007F#32 = 0x00000037#32) ∧ (∃ rd : RegIdx, rd ≠ 0) :=
  ⟨⟨0xFFFFFFB7, by decide⟩, ⟨31, by decide⟩⟩

theorem witness_AuipcAddsToPc : (∃ w : Word, w &&& 0x0000007F#32 = 0x00000017#32) ∧ (∃ rd : RegIdx, rd ≠ 0) :=
  ⟨⟨0xFFFFFF97, by decide⟩, ⟨31, by decide⟩⟩

theorem witness_EcallPrintsInteger :
    ∃ s : State, s.reg 10 = 1#32 ∧ s.reg 11 = 0x80000000 := ⟨bare 0x1000 [(10, 1), (11, 0x80000000)], by decide⟩

theorem witness_EcallPrintsSomeFloat : ∃ s : State, s.reg 10 = 10#32 := ⟨bare 0x1000 [(10, 10)], by decide⟩

/-- A core about to print the string at `a`, over this memory and these regions. -/
def stringState (a : Word) (mem : Memory) (rs : List Region) : State :=
  { pc := 0x1000, x := regs [(10, 100), (11, a)], run := .running, env := { Env.initial with mem := mem, regions := rs } }

theorem witness_EcallPrintsString :
    (∃ (s : State) (text : List Byte), s.reg 10 = 100#32 ∧ (s.reg 11).toNat + text.length < 2 ^ 32 ∧
      (∀ (k : Nat) (b : Byte), text[k]? = some b →
        Mapped s ((s.reg 11).toNat + k) ∧ byteAt s ((s.reg 11).toNat + k) = b ∧ b ≠ 0#8) ∧
      Mapped s ((s.reg 11).toNat + text.length) ∧ byteAt s ((s.reg 11).toNat + text.length) = 0#8 ∧ text = [0x41]) ∧
    (∃ (s : State) (text : List Byte), s.reg 10 = 100#32 ∧ (s.reg 11).toNat + text.length < 2 ^ 32 ∧
      (∀ (k : Nat) (b : Byte), text[k]? = some b →
        Mapped s ((s.reg 11).toNat + k) ∧ byteAt s ((s.reg 11).toNat + k) = b ∧ b ≠ 0#8) ∧
      ¬Mapped s ((s.reg 11).toNat + text.length) ∧ text = [0x41]) := by
  refine ⟨⟨stringState 0x2000 [(0x2000, 0x41)] Params.regions, [0x41], by decide, by decide, ?_, mapped_of (by decide),
      by decide, rfl⟩,
    ⟨stringState 0x7FFF [(0x7FFF, 0x41)] Params.regions, [0x41], by decide, by decide, ?_, not_mapped_of (by decide), rfl⟩⟩
  all_goals
    intro k b h
    cases k with
    | zero => cases h; exact ⟨mapped_of (by decide), by decide, by decide⟩
    | succ k => simp at h

theorem witness_StringScanWrapsAtTop :
    ∃ (s : State) (text : List Byte), s.reg 10 = 100#32 ∧ text.length < 2 ^ 32 ∧
      (∀ (k : Nat) (b : Byte), text[k]? = some b →
        Mapped s (((s.reg 11).toNat + k) % 2 ^ 32) ∧ byteAt s (((s.reg 11).toNat + k) % 2 ^ 32) = b ∧ b ≠ 0#8) ∧
      Mapped s (((s.reg 11).toNat + text.length) % 2 ^ 32) ∧
      byteAt s (((s.reg 11).toNat + text.length) % 2 ^ 32) = 0#8 ∧ 2 ^ 32 ≤ (s.reg 11).toNat + text.length := by
  refine ⟨stringState 0xFFFFFFFF [(0xFFFFFFFF, 0x41)] [⟨.data, 0, 2 ^ 32⟩], [0x41], by decide, by decide, ?_,
    mapped_of (by decide), by decide, by decide⟩
  intro k b h
  cases k with
  | zero => cases h; exact ⟨mapped_of (by decide), by decide, by decide⟩
  | succ k => simp at h

theorem witness_StringScanFaultsPastTop :
    ∃ (s : State) (text : List Byte), s.reg 10 = 100#32 ∧ text.length < 2 ^ 32 ∧
      (∀ (k : Nat) (b : Byte), text[k]? = some b →
        Mapped s (((s.reg 11).toNat + k) % 2 ^ 32) ∧ byteAt s (((s.reg 11).toNat + k) % 2 ^ 32) = b ∧ b ≠ 0#8) ∧
      ¬Mapped s (((s.reg 11).toNat + text.length) % 2 ^ 32) ∧ 2 ^ 32 ≤ (s.reg 11).toNat + text.length := by
  refine ⟨stringState 0xFFFFFFFF [(0xFFFFFFFF, 0x41)] [⟨.data, 0xFFFFFFFF, 1⟩], [0x41], by decide, by decide, ?_,
    not_mapped_of (by decide), by decide⟩
  intro k b h
  cases k with
  | zero => cases h; exact ⟨mapped_of (by decide), by decide, by decide⟩
  | succ k => simp at h

theorem witness_EcallPrintsCharacter :
    ∃ s : State, s.reg 10 = 1011#32 ∧ s.reg 11 = 0x141 := ⟨bare 0x1000 [(10, 1011), (11, 0x141)], by decide⟩

theorem witness_EcallReportsUnknownNumber :
    ∃ s : State, s.reg 10 ∉ [1#32, 10#32, 100#32, 1011#32] ∧ s.run = .running ∧ s.reg 10 = 0x00010001 :=
  ⟨bare 0x1000 [(10, 0x00010001)], by decide⟩

theorem witness_EcallPreservesRegisters :
    (∃ s t : State, exec .ecall s = .next t ∧ (t.run == .running) = true) ∧
    (∃ s t : State, exec .ecall s = .next t ∧ (t.run == .stopped .memoryFault) = true) :=
  ⟨⟨bare 0x1000 [(10, 1), (11, 42)], next_of (p := fun t => t.run == .running) (by decide)⟩,
    ⟨stringState 0x9000 [] Params.regions, next_of (p := fun t => t.run == .stopped .memoryFault) (by decide)⟩⟩

theorem witness_EbreakStops : ∃ w : Word, w &&& 0x0010007F#32 = 0x00100073#32 ∧ w ≠ 0x00100073 := ⟨0x301312F3, by decide⟩

theorem witness_PlaceholdersStop :
    (∃ w : Word, opcodeOf w = 0x03#7) ∧ (∃ w : Word, opcodeOf w = 0x23#7) ∧ (∃ w : Word, opcodeOf w = 0x0F#7) ∧
    (∃ w : Word, opcodeOf w = 0x67#7) :=
  ⟨⟨0x00032283, by decide⟩, ⟨0x00532023, by decide⟩, ⟨0x0000100F, by decide⟩, ⟨0x00008067, by decide⟩⟩

/-- The addresses are those of the last word of the address space, in a memory that answers everywhere. -/
def topState : State :=
  { pc := 0xFFFFFFFC, x := regs [], run := .running,
    env := { Env.initial with mem := Memory.writeWord [] 0xFFFFFFFC 0x00100073, regions := [⟨.text, 0, 2 ^ 32⟩] } }

theorem topState_mapped (k : Nat) (h : k < 4) : Mapped topState (topState.pc.toNat + k) :=
  ⟨⟨.text, 0, 2 ^ 32⟩, by decide, by simp, by simp [topState]; omega⟩

theorem witness_StepRunsDecodedInstruction :
    ∃ (s : State) (i : Instr), s.run = .running ∧ s.pc.toNat + 4 ≤ 2 ^ 32 ∧
      (∀ k, k < 4 → Mapped s (s.pc.toNat + k)) ∧
      route (byteAt s (s.pc.toNat + 3) ++ byteAt s (s.pc.toNat + 2) ++ byteAt s (s.pc.toNat + 1) ++
        byteAt s s.pc.toNat) = .instr i :=
  ⟨topState, .ebreak, by decide, by decide, topState_mapped, by decide⟩

theorem witness_FetchIsLittleEndian :
    ∃ s : State, s.pc.toNat + 4 ≤ 2 ^ 32 ∧ (∀ k, k < 4 → Mapped s (s.pc.toNat + k)) ∧ s.pc.toNat + 4 = 2 ^ 32 :=
  ⟨topState, by decide, topState_mapped, by decide⟩

theorem witness_FetchFaults :
    (∃ (s : State) (k : Nat), s.run = .running ∧ k < 4 ∧ ¬Mapped s (s.pc.toNat + k) ∧ k = 3 ∧ Mapped s (s.pc.toNat + 2)) ∧
    (∃ s : State, s.run = .running ∧ 2 ^ 32 - 4 < s.pc.toNat ∧ s.pc.toNat = 2 ^ 32 - 3) :=
  ⟨⟨bare 0x7FFD [], 3, by decide, by decide, not_mapped_of (by decide), by decide, mapped_of (by decide)⟩,
    ⟨bare 0xFFFFFFFD [], by decide⟩⟩

/-- A fatal cycle, a normal cycle and the cycle of an EBREAK, as the statements about all steps need them. -/
theorem witness_steps :
    (∃ s t : State, step s = .next t ∧ (t.run == .stopped .notImplemented) = true) ∧
    (∃ s t : State, step s = .next t ∧ (t.run == .running) = true) ∧
    (∃ s t : State, step s = .next t ∧ (t.run == .stopped .breakpoint) = true) :=
  ⟨⟨at_ 0x1000 0x00032283 [], next_of (p := fun t => t.run == .stopped .notImplemented) (by decide)⟩,
    ⟨at_ 0x1000 0x00208463 [], next_of (p := fun t => t.run == .running) (by decide)⟩,
    ⟨at_ 0x1000 0x00100073 [], next_of (p := fun t => t.run == .stopped .breakpoint) (by decide)⟩⟩

theorem witness_RunLatchHoldsTheStop :
    (∃ (s : State) (c : StopCause), s.run = .stopped c) ∧ (∃ s t : State, step s = .next t ∧ (t.run == .running) = true) ∧
    (∃ (i : Instr) (s t : State), s.run = .running ∧ exec i s = .next t ∧ (t.run == .running) = true) ∧
    (∃ (i : Instr) (s t : State), s.run = .running ∧ exec i s = .next t ∧ (t.run == .stopped .breakpoint) = true) := by
  refine ⟨⟨(bare 0 []).setRun (.stopped .breakpoint), .breakpoint, rfl⟩, witness_steps.2.1, ⟨.lui 1 1, bare 0 [], ?_⟩,
    ⟨.ebreak, bare 0 [], ?_⟩⟩
  · obtain ⟨t, h⟩ := next_of (r := exec (.lui 1 1) (bare 0 [])) (p := fun t => t.run == .running) (by decide)
    exact ⟨t, rfl, h⟩
  · obtain ⟨t, h⟩ := next_of (r := exec .ebreak (bare 0 [])) (p := fun t => t.run == .stopped .breakpoint) (by decide)
    exact ⟨t, rfl, h⟩

theorem witness_PcContract :
    (∃ s t : State, step s = .next t ∧ (t.run == .stopped .notImplemented) = true) ∧
    (∃ s t : State, step s = .next t ∧ (t.run == .running) = true) ∧
    (∃ s t : State, step s = .next t ∧ (t.run == .stopped .breakpoint) = true) := witness_steps

theorem witness_FatalCyclesMutateNothing :
    ∃ (s t : State) (c : StopCause), step s = .next t ∧ t.run = .stopped c ∧ c ≠ .breakpoint := by
  obtain ⟨s, t, h, q⟩ := witness_steps.1
  exact ⟨s, t, .notImplemented, h, by simpa using q, by decide⟩

theorem witness_ContinueFlagMeaning :
    (∃ s t : State, step s = .next t ∧ (t.run == .stopped .breakpoint) = true) ∧
    (∃ s t : State, step s = .next t ∧ (t.env.errors == [.unknownSyscall 7]) = true ∧ s.env.errors = []) := by
  refine ⟨witness_steps.2.2, ⟨at_ 0x1000 0x00000073 [(10, 7)], ?_⟩⟩
  obtain ⟨t, h, q⟩ := next_of (r := step (at_ 0x1000 0x00000073 [(10, 7)]))
    (p := fun t => t.env.errors == [.unknownSyscall 7]) (by decide)
  exact ⟨t, h, q, rfl⟩

theorem witness_AtMostOneDiagnostic :
    (∃ (s t : State) (n : Word), step s = .next t ∧ t.env.errors = s.env.errors ++ [.unknownSyscall n]) ∧
    (∃ s t : State, step s = .next t ∧ t.run = .stopped .breakpoint) := by
  obtain ⟨s, t, h, q, e⟩ := witness_ContinueFlagMeaning.2
  obtain ⟨s', t', h', q'⟩ := witness_steps.2.2
  exact ⟨⟨s, t, 7, h, by rw [e]; simpa using q⟩, ⟨s', t', h', by simpa using q'⟩⟩

theorem witness_CoreNeverWritesMemory : ∃ s t : State, step s = .next t ∧ (t.run == .stopped .notImplemented) = true :=
  ⟨at_ 0x1000 0x00532023 [], next_of (p := fun t => t.run == .stopped .notImplemented) (by decide)⟩

theorem witness_OnlyTheDestinationChanges :
    ∃ (s t : State) (r : RegIdx), step s = .next t ∧ (t.reg r != s.reg r) = true := by
  obtain ⟨t, h⟩ := next_of (r := step (at_ 0x1000 0x008000EF []))
    (p := fun t => t.reg 1 != (at_ 0x1000 0x008000EF []).reg 1) (by decide)
  exact ⟨_, t, 1, h⟩

/-- The two states differ in a register that ADD does not read, and in the latch. -/
theorem witness_ResultsDependOnSourcesAlone :
    ∃ (i : Instr) (s s' t : State), s'.pc = s.pc ∧ s'.env = s.env ∧ (∀ r ∈ sources i, s'.reg r = s.reg r) ∧
      exec i s = .next t ∧ s' ≠ s :=
  ⟨.add 3 1 2, bare 0 [(1, 5), (2, 7)], (bare 0 [(1, 5), (2, 7), (3, 1)]).setRun (.stopped .breakpoint), _, rfl, rfl,
    by decide, rfl, by decide⟩

theorem witness_OutputOnlyByEcall :
    ∃ s t : State, step s = .next t ∧ (t.env.output != s.env.output) = true := by
  obtain ⟨t, h⟩ := next_of (r := step (at_ 0x1000 0x00000073 [(10, 1)])) (p := fun t => t.env.output != []) (by decide)
  exact ⟨_, t, h⟩

theorem witness_RegisterZeroIsHardwired : (∃ i : RegIdx, i ≠ 0 ∧ i = 31) ∧ (∃ i j : RegIdx, j ≠ i ∧ j = 0) :=
  ⟨⟨31, by decide⟩, ⟨1, 0, by decide⟩⟩

theorem witness_PlacedWordRunsNext :
    (∃ (s : State) (w : Word) (i : Instr), s.env.mem.wf = true ∧ s.pc.toNat + 4 ≤ 2 ^ 32 ∧ route w = .instr i ∧
      s = State.reset) ∧
    (∃ (s : State) (w : Word) (i : Instr), s.env.mem.wf = true ∧ s.pc.toNat + 4 ≤ 2 ^ 32 ∧ route w = .instr i ∧
      s.pc.toNat + 4 = 2 ^ 32) :=
  ⟨⟨State.reset, 0x00000073, .ecall, by decide, by decide, by decide, rfl⟩,
    ⟨topState, 0x00000073, .ecall, by decide, by decide, by decide, by decide⟩⟩

theorem witness_FetchSeesHostWrites :
    ∃ (s : State) (a : Word) (k : Nat), s.env.mem.wf = true ∧ s.pc.toNat + 4 ≤ 2 ^ 32 ∧
      (∀ j, j < 4 → Mapped s (s.pc.toNat + j)) ∧ k < 4 ∧ a.toNat = s.pc.toNat + k ∧ k = 3 :=
  ⟨topState, 0xFFFFFFFF, 3, by decide, by decide, topState_mapped, by decide, by decide, rfl⟩

theorem witness_EveryCycleEnds :
    (∃ (s : State) (a : Nat), s.run = .running ∧ a < 2 ^ 32 ∧ ¬Mapped s a) ∧
    (∃ (s : State) (a : Nat), s.run = .running ∧ a < 2 ^ 32 ∧ byteAt s a = 0#8 ∧ Mapped s a) :=
  ⟨⟨State.reset, 0, rfl, by decide, not_mapped_of (by decide)⟩,
    ⟨State.reset, 0x1000, rfl, by decide, by decide, mapped_of (by decide)⟩⟩

theorem witness_ResetEstablishesInvariant :
    ∃ e : Env, e.mem.wf = true ∧ e.errors = [] ∧ e.mem ≠ [] :=
  ⟨{ Env.initial with mem := [(0x2000, 0x48)] }, by decide⟩

/-- The invariant holds at reset, and reset has a next state. -/
theorem witness_StepKeepsInvariant : ∃ s t : State, Inv s ∧ step s = .next t := by
  obtain ⟨t, h, -⟩ := next_of (r := step State.reset) (p := fun t => t.run == .stopped .unrecognizedFormat) (by decide)
  exact ⟨State.reset, t, ⟨by decide, by decide, by decide⟩, h⟩

theorem witness_StepKeepsPcEven : ∃ s t : State, s.pc.toNat % 2 = 0 ∧ step s = .next t ∧ (t.pc == 0x2FFE) = true := by
  obtain ⟨t, h⟩ := next_of (r := step (at_ 0x2000 0x7E20EFE3 [(2, 1)])) (p := fun t => t.pc == 0x2FFE) (by decide)
  exact ⟨_, t, by decide, h⟩

end Sys2Proof.Tests
end

section
/-! PROOF. The string scan of 46_system.md R181, and the ECALLs that end as successful ones. -/

namespace Sys2Proof.Machine

/-- The bytes from `a` on, at addresses modulo `2^XLEN`, are readable, not NUL, and spell `text`. -/
def TextAt (rs : List Region) (m : Memory) (a : Word) (text : List Byte) : Prop :=
  ∀ (k : Nat) (b : Byte), text[k]? = some b →
    inRegions rs (a + BitVec.ofNat 32 k).toNat = true ∧ m.readByte (a + BitVec.ofNat 32 k).toNat = b ∧ b ≠ 0#8

section Scan
variable {rs : List Region} {m : Memory} {a : Word} {b : Byte} {text : List Byte}

theorem TextAt.head (h : TextAt rs m a (b :: text)) :
    inRegions rs a.toNat = true ∧ m.readByte a.toNat = b ∧ b ≠ 0#8 := by
  simpa using h 0 b rfl

theorem TextAt.tail (h : TextAt rs m a (b :: text)) : TextAt rs m (a + 1#32) text := by
  intro k c hc
  have next : a + 1#32 + BitVec.ofNat 32 k = a + BitVec.ofNat 32 (k + 1) := by
    rw [BitVec.add_assoc, Nat.add_comm k 1, BitVec.ofNat_add]
  rw [next]
  exact h (k + 1) c hc

theorem scanString_of_nul (hr : inRegions rs a.toNat = true) (h0 : m.readByte a.toNat = 0#8) (fuel : Nat) :
    scanString rs m (fuel + 1) a = .nul [] := by
  simp [scanString, memReadByte_inRange hr, h0]

theorem scanString_of_char (hr : inRegions rs a.toNat = true) (hb : m.readByte a.toNat = b) (hne : b ≠ 0#8)
    (fuel : Nat) : scanString rs m (fuel + 1) a = (scanString rs m fuel (a + 1#32)).cons b := by
  simp [scanString, memReadByte_inRange hr, hb, hne]

/-- A scan collects a readable text in full and goes on at the address after it, wherever that wraps to. -/
theorem scanString_of_textAt (fuel : Nat) (h : TextAt rs m a text) :
    scanString rs m (text.length + fuel) a =
      text.foldr Scan.cons (scanString rs m fuel (a + BitVec.ofNat 32 text.length)) := by
  induction text generalizing a with
  | nil => simp
  | cons b text ih =>
    obtain ⟨hr, hb, hne⟩ := h.head
    have rest : a + 1#32 + BitVec.ofNat 32 text.length = a + BitVec.ofNat 32 (b :: text).length := by
      rw [BitVec.add_assoc, List.length_cons, Nat.add_comm text.length 1, BitVec.ofNat_add]
    calc scanString rs m ((b :: text).length + fuel) a
        = scanString rs m (text.length + fuel + 1) a := by rw [List.length_cons, Nat.add_right_comm]
      _ = (scanString rs m (text.length + fuel) (a + 1#32)).cons b := scanString_of_char hr hb hne _
      _ = _ := by rw [ih h.tail, rest, List.foldr_cons]

theorem foldr_scanCons_nul (text t : List Byte) : text.foldr Scan.cons (.nul t) = .nul (text ++ t) := by
  induction text with
  | nil => rfl
  | cons b text ih => rw [List.foldr_cons, ih]; rfl

/-- The handler's scan has fuel for every text shorter than the address space. -/
theorem scanString_textAt_nul (hlen : text.length < addressSpace) (h : TextAt rs m a text)
    (hr : inRegions rs (a + BitVec.ofNat 32 text.length).toNat = true)
    (h0 : m.readByte (a + BitVec.ofNat 32 text.length).toNat = 0#8) :
    scanString rs m addressSpace a = .nul text := by
  obtain ⟨fuel, hfuel⟩ := Nat.exists_eq_add_of_lt hlen
  rw [hfuel, Nat.add_assoc, scanString_of_textAt _ h, scanString_of_nul hr h0, foldr_scanCons_nul, List.append_nil]

end Scan

theorem syscall_printString_nul {a : Word} {e : Env} {text : List Byte}
    (h : scanString e.regions e.mem addressSpace a = .nul text) :
    syscall Params.sysPrintString a e = .answered (.ok none) (e.print text) := by
  have hint : Params.sysPrintString ≠ Params.sysPrintInt := by decide
  have hfloat : Params.sysPrintString ≠ Params.sysPrintFloat := by decide
  rw [syscall, if_neg hint, if_neg hfloat, if_pos rfl, h]

end Sys2Proof.Machine

namespace Sys2Proof.Claims
open Sys2Proof.Machine

theorem mapped_iff (s : State) (a : Nat) : Mapped s a ↔ inRegions s.env.regions a = true := by
  simp [Mapped, inRegions, Region.covers]

/-- Addresses modulo `2^32`, as the statements write them, are the handler's `XLEN`-bit addresses. -/
theorem toNat_add_offset (a : Word) (k : Nat) : (a + BitVec.ofNat 32 k).toNat = (a.toNat + k) % 2 ^ 32 := by
  rw [BitVec.toNat_add, BitVec.toNat_ofNat, Nat.add_mod_mod]

/-- An ECALL that the handler answers with `Ok(none)` prints what the handler added to the output channel. -/
theorem ecall_printed {s : State} {e : Env} {text : List Byte}
    (h : syscall (s.reg Params.regA0) (s.reg Params.regA1) s.env = .answered (.ok none) e)
    (hout : e.output = s.env.output ++ text) :
    ∃ t, exec .ecall s = .next t ∧ Printed s t text ∧ t.env = e := by
  obtain ⟨hmem, hregions, herrors, -, -⟩ := syscall_cases h
  have hbytes : ∀ a, byteAt (commit {} (s.setEnv e)) a = byteAt s a := fun a => by simp [byteAt, hmem]
  exact ⟨commit {} (s.setEnv e), by simp [exec, execEcall, h, afterSyscall],
    ⟨rfl, fun _ => rfl, rfl, ⟨hbytes, hmem, hregions⟩, herrors, hout⟩, rfl⟩

/-- Settles O26: the scan's addresses are 32-bit words, so it collects the text across the top of the address space and
ends at the NUL, with a byte of fuel left. -/
theorem stringScanWrapsAtTop : Obligations.StringScanWrapsAtTop := by
  unfold Obligations.StringScanWrapsAtTop
  intro s text hnum hlen htext hmapped hnul
  simp only [byteAt, mapped_iff, ← toNat_add_offset] at htext hmapped hnul
  have hscan : scanString s.env.regions s.env.mem addressSpace (s.reg 11) = .nul text :=
    scanString_textAt_nul hlen htext hmapped hnul
  have hcall : syscall (s.reg Params.regA0) (s.reg Params.regA1) s.env = .answered (.ok none) (s.env.print text) := by
    rw [show s.reg Params.regA0 = Params.sysPrintString from hnum]
    exact syscall_printString_nul hscan
  obtain ⟨t, hexec, hprinted, -⟩ := ecall_printed hcall rfl
  exact ⟨t, hexec, hprinted⟩

end Sys2Proof.Claims
end

section
/-! PROOF. The effect of an instruction as a value that `pc`, the source registers and the environment decide
(10_state.md R25, R27), and what a cycle does to the core's three components. -/

namespace Sys2Proof.Machine

/-! ## Conditions and offsets -/

theorem condEq_iff (a b : Word) : condEq a b = true ↔ a = b := beq_iff_eq
theorem condNe_iff (a b : Word) : condNe a b = true ↔ a ≠ b := bne_iff_ne
theorem condLt_iff (a b : Word) : condLt a b = true ↔ a.toInt < b.toInt := decide_eq_true_iff
theorem condGe_iff (a b : Word) : condGe a b = true ↔ a.toInt ≥ b.toInt := decide_eq_true_iff
theorem condLtu_iff (a b : Word) : condLtu a b = true ↔ a.toNat < b.toNat := decide_eq_true_iff
theorem condGeu_iff (a b : Word) : condGeu a b = true ↔ a.toNat ≥ b.toNat := decide_eq_true_iff

/-- Doubling a sign-extended immediate is sign-extending it with a zero bit below it (30_encoding.md R72, R73, at
`CT_SCALE = 2`). -/
theorem signExtend_mul_two {n : Nat} (raw : BitVec n) : raw.signExtend 32 * 2#32 = (raw ++ 0#1).signExtend 32 := by
  rw [BitVec.signExtend, BitVec.signExtend, BitVec.toInt_append_zero, BitVec.ofInt_mul, BitVec.mul_comm]
  rfl

theorem branchOffset_eq (raw : BitVec 12) : branchOffset raw = (raw ++ 0#1).signExtend 32 := by
  rw [← signExtend_mul_two raw, branchOffset, sext, BitVec.setWidth_eq, Params.ctScale]

theorem jumpOffset_eq (raw : BitVec 20) : jumpOffset raw = (raw ++ 0#1).signExtend 32 := by
  rw [← signExtend_mul_two raw, jumpOffset, sext, BitVec.setWidth_eq, Params.ctScale]

theorem signExtend_append_zero_even {n : Nat} (raw : BitVec n) :
    ((raw ++ 0#1).signExtend 32).toNat % 2 = 0 := by
  rw [← signExtend_mul_two raw, BitVec.toNat_mul, BitVec.toNat_ofNat]
  omega

/-! ## Effects -/

/-- What an instruction does to a state, as plain data: the new `pc`, at most one register write, whether the latch is
stopped, and the environment afterwards. -/
structure Effect where
  pc : Word
  write : Option (RegIdx × Word) := none
  stop : Option StopCause := none
  env : Env

/-- The latch after an effect that found it at `r`. -/
def Effect.latch (a : Effect) (r : Run) : Run :=
  match a.stop with
  | none => r
  | some c => .stopped c

/-- The state after an effect. -/
def Effect.apply (a : Effect) (s : State) : State :=
  (((commitWrite a.write s).setPc a.pc).setRun (a.latch s.run)).setEnv a.env

@[simp] theorem Effect.apply_pc (a : Effect) (s : State) : (a.apply s).pc = a.pc := rfl
@[simp] theorem Effect.apply_run (a : Effect) (s : State) : (a.apply s).run = a.latch s.run := rfl
@[simp] theorem Effect.apply_env (a : Effect) (s : State) : (a.apply s).env = a.env := rfl
@[simp] theorem Effect.apply_reg (a : Effect) (s : State) (r : RegIdx) :
    (a.apply s).reg r = (commitWrite a.write s).reg r := rfl

/-- The effect of committing a yield. -/
def Effect.committed (y : Yield) (pc : Word) (e : Env) : Effect :=
  { pc := nextPc y.target pc, write := y.write, env := e }

/-- The effect of raising a fatal condition. -/
def Effect.raised (f : Fatal) (pc : Word) (e : Env) : Effect :=
  { pc := pc, stop := some f.cause, env := e.report (.fatal f) }

theorem commit_eq_apply (y : Yield) (e : Env) (s : State) :
    commit y (s.setEnv e) = (Effect.committed y s.pc e).apply s := by
  obtain ⟨_ | ⟨rd, v⟩, target⟩ := y <;> rfl

theorem raise_eq_apply (f : Fatal) (e : Env) (s : State) :
    raise f (s.setEnv e) = (Effect.raised f s.pc e).apply s := rfl

/-- A register that the write does not name keeps its value. -/
theorem commitWrite_reg_other {w : Option (RegIdx × Word)} {r : RegIdx} (h : w.map Prod.fst ≠ some r) (s : State) :
    (commitWrite w s).reg r = s.reg r := by
  cases w with
  | none => rfl
  | some p => exact RegFile.read_write_other _ _ fun hr => h (congrArg some hr.symm)

/-- What the named register reads afterwards does not depend on the state before. -/
theorem commitWrite_reg_named {w : Option (RegIdx × Word)} {r : RegIdx} (h : w.map Prod.fst = some r) (s s' : State) :
    (commitWrite w s').reg r = (commitWrite w s).reg r := by
  obtain ⟨⟨rd, v⟩, rfl, rfl⟩ := Option.map_eq_some_iff.1 h
  by_cases hr : rd = 0
  · simp [hr]
  · simp [State.reg_setReg, hr]

theorem exec_of_yield {i : Instr} {s : State} {y : Yield} (h : Instr.yield i s = some y) :
    exec i s = .next (commit y s) := by
  cases i with
  | ecall | ebreak | load | store | fence | jalr => cases h
  | _ => cases h; rfl

theorem continueFlag_eq_false_iff (t : State) : continueFlag t = false ↔ ∃ c, t.run = .stopped c := by
  cases h : t.run <;> simp [continueFlag, h]

/-- The registers right after a create request (10_state.md R37). -/
theorem RegFile.read_created (l : Layout) (i : RegIdx) :
    (RegFile.created l).read i = if i = 3 then l.dataBase else if i = 2 then l.stackTop - 4#32 else 0#32 := by
  simp [RegFile.created, RegFile.read_write, Params.regSp, Params.regGp, Params.xbytes]

end Sys2Proof.Machine

namespace Sys2Proof.Claims
open Sys2Proof.Machine

/-- Two states that an instruction cannot tell apart by the table of 10_state.md R25. -/
structure SameSources (i : Instr) (s s' : State) : Prop where
  pc : s'.pc = s.pc
  env : s'.env = s.env
  reg : ∀ r ∈ sources i, s'.reg r = s.reg r

theorem SameSources.rfl {i : Instr} {s : State} : SameSources i s s := ⟨Eq.refl _, Eq.refl _, fun _ _ => Eq.refl _⟩

theorem SameEnv.rfl {e t : Env} : SameEnv e t t := ⟨Eq.refl _, Eq.refl _, Eq.refl _, Eq.refl _, fun _ => Eq.refl _⟩

/-- The `pc` that 10_state.md R27 gives a cycle without a fatal stop: the transfer's target, or `pc + 4`. -/
def pcAfter (i : Instr) (s : State) : Word := nextPc ((transferOffset s i).map (s.pc + ·)) s.pc

/-! ## What the committing instructions yield -/

theorem yield_congr {i : Instr} {s s' : State} (h : SameSources i s s') : Instr.yield i s' = Instr.yield i s := by
  obtain ⟨hpc, -, hreg⟩ := h
  cases i <;> simp_all [Instr.yield, sources]

theorem yield_write {i : Instr} {s : State} {y : Yield} (h : Instr.yield i s = some y) :
    y.write.map Prod.fst = dest i := by
  cases i with
  | ecall | ebreak | load | store | fence | jalr => cases h
  | _ => cases h; rfl

/-- A branch's target, with its condition as the statements write it. -/
theorem branchTarget_eq {taken : Bool} {P : Prop} [Decidable P] (h : taken = true ↔ P) (pc : Word) (raw : BitVec 12) :
    (if taken then some (pc + branchOffset raw) else none) =
      (if P then some ((raw ++ 0#1).signExtend 32) else none).map (pc + ·) := by
  by_cases hP : P
  · rw [if_pos (h.2 hP), if_pos hP, branchOffset_eq, Option.map_some]
  · rw [if_neg (mt h.1 hP), if_neg hP, Option.map_none]

theorem yield_target {i : Instr} {s : State} {y : Yield} (h : Instr.yield i s = some y) :
    y.target = (transferOffset s i).map (s.pc + ·) := by
  cases i with
  | ecall | ebreak | load | store | fence | jalr => cases h
  | beq => cases h; exact branchTarget_eq (condEq_iff ..) _ _
  | bne => cases h; exact branchTarget_eq (condNe_iff ..) _ _
  | blt => cases h; exact branchTarget_eq (condLt_iff ..) _ _
  | bge => cases h; exact branchTarget_eq (condGe_iff ..) _ _
  | bltu => cases h; exact branchTarget_eq (condLtu_iff ..) _ _
  | bgeu => cases h; exact branchTarget_eq (condGeu_iff ..) _ _
  | jal rd raw => cases h; exact congrArg (fun off => some (s.pc + off)) (jumpOffset_eq raw)
  | add | sub | xor | addi | slli | lui | auipc => cases h; rfl

/-! ## Every instruction has an effect that its sources decide -/

/-- `a` is the effect of `i` in `s` and in every state with the same sources: it writes the destination of `i`, and it is
a fatal stop that leaves `pc` as it was or a completed cycle with the `pc` of 10_state.md R27. -/
structure HasEffect (i : Instr) (s : State) (a : Effect) : Prop where
  write : a.write.map Prod.fst = dest i
  pc : (∃ f : Fatal, a.stop = some f.cause ∧ a.pc = s.pc) ∨
    ((a.stop = none ∨ a.stop = some .breakpoint) ∧ a.pc = pcAfter i s)
  runs : ∀ s', SameSources i s s' → exec i s' = .next (a.apply s')

theorem hasEffect_of_yield {i : Instr} {s : State} {y : Yield} (h : Instr.yield i s = some y) :
    HasEffect i s (.committed y s.pc s.env) where
  write := yield_write h
  pc := .inr ⟨.inl rfl, by rw [pcAfter, ← yield_target h]; rfl⟩
  runs s' hs := by rw [exec_of_yield ((yield_congr hs).trans h), ← hs.pc, ← hs.env, ← commit_eq_apply]; rfl

theorem hasEffect_of_raise {i : Instr} {s : State} {f : Fatal} (hdest : dest i = none)
    (h : ∀ s, exec i s = .next (raise f s)) : HasEffect i s (.raised f s.pc s.env) where
  write := hdest.symm
  pc := .inl ⟨f, rfl, rfl⟩
  runs s' hs := by rw [h, ← hs.pc, ← hs.env]; rfl

theorem hasEffect_ebreak (s : State) :
    HasEffect .ebreak s { pc := s.pc + 4#32, stop := some .breakpoint, env := s.env } where
  write := rfl
  pc := .inr ⟨.inr rfl, rfl⟩
  runs s' hs := by rw [← hs.pc, ← hs.env]; rfl

theorem execEcall_of_sameSources {s s' : State} {ans : Answer} {e : Env} (hs : SameSources .ecall s s')
    (h : syscall (s.reg Params.regA0) (s.reg Params.regA1) s.env = .answered ans e) :
    execEcall s' = afterSyscall (s.reg Params.regA0) (.answered ans e) s' := by
  have ha0 : s'.reg Params.regA0 = s.reg Params.regA0 := hs.reg _ (by decide)
  have ha1 : s'.reg Params.regA1 = s.reg Params.regA1 := hs.reg _ (by decide)
  rw [execEcall, ha0, ha1, hs.env, h]

theorem exists_effect_ecall {s t : State} (h : execEcall s = .next t) : ∃ a, HasEffect .ecall s a := by
  obtain ⟨ans, e, hsys, ⟨rfl, -⟩ | ⟨rfl, -⟩ | ⟨ad, rfl, -⟩⟩ := execEcall_cases h
  · refine ⟨.committed {} s.pc e, rfl, .inr ⟨.inl rfl, rfl⟩, fun s' hs => ?_⟩
    rw [← hs.pc, ← commit_eq_apply]
    exact execEcall_of_sameSources hs hsys
  · refine ⟨.committed {} s.pc (e.report (.unknownSyscall (s.reg Params.regA0))), rfl, .inr ⟨.inl rfl, rfl⟩,
      fun s' hs => ?_⟩
    rw [← hs.pc, ← commit_eq_apply]
    exact execEcall_of_sameSources hs hsys
  · refine ⟨.raised (.memoryFault ad) s.pc e, rfl, .inl ⟨_, rfl, rfl⟩, fun s' hs => ?_⟩
    rw [← hs.pc, ← raise_eq_apply]
    exact execEcall_of_sameSources hs hsys

theorem HasEffect.eq_apply {i : Instr} {s t : State} {a : Effect} (ha : HasEffect i s a) (h : exec i s = .next t) :
    t = a.apply s :=
  Host.Outcome.next.inj (h.symm.trans (ha.runs s .rfl))

/-- Every next state of an instruction is the outcome of an effect that its sources decide. -/
theorem exists_effect {i : Instr} {s t : State} (h : exec i s = .next t) : ∃ a, HasEffect i s a ∧ t = a.apply s := by
  obtain ⟨a, ha⟩ : ∃ a, HasEffect i s a := by
    cases i with
    | ecall => exact exists_effect_ecall h
    | ebreak => exact ⟨_, hasEffect_ebreak s⟩
    | load | store | fence | jalr => exact ⟨_, hasEffect_of_raise rfl fun _ => rfl⟩
    | _ => exact ⟨_, hasEffect_of_yield rfl⟩
  exact ⟨a, ha, ha.eq_apply h⟩

theorem HasEffect.reg_other {i : Instr} {s : State} {a : Effect} (ha : HasEffect i s a) {r : RegIdx}
    (hr : dest i ≠ some r) (s' : State) : (a.apply s').reg r = s'.reg r :=
  commitWrite_reg_other (ha.write ▸ hr) s'

theorem HasEffect.reg_dest {i : Instr} {s : State} {a : Effect} (ha : HasEffect i s a) {r : RegIdx}
    (hr : dest i = some r) (s₁ s₂ : State) : (a.apply s₂).reg r = (a.apply s₁).reg r :=
  commitWrite_reg_named (ha.write.trans hr) s₁ s₂

/-! ## Cycles -/

/-- A cycle raises a fatal condition before an instruction is found, or executes the one it fetched. -/
theorem step_raises_or_runs {s t : State} (h : step s = .next t) :
    (∃ f, t = raise f s) ∨ ∃ i, Runs s i ∧ exec i s = .next t := by
  obtain ⟨hrun, ⟨-, -, ht⟩ | ⟨w, hw, ⟨op, -, ht⟩ | ⟨f, k, -, ht⟩ | ⟨i, hi, ht⟩⟩⟩ := step_cases h
  · exact .inl ⟨_, ht⟩
  · exact .inl ⟨_, ht⟩
  · exact .inl ⟨_, ht⟩
  · exact .inr ⟨i, ⟨w, ⟨hrun, hw⟩, hi⟩, ht⟩

theorem Runs.running {s : State} {i : Instr} (h : Runs s i) : s.run = .running := by
  obtain ⟨w, ⟨hrun, -⟩, -⟩ := h
  exact hrun

/-- How every cycle leaves `pc` and the latch. -/
theorem step_pc {s t : State} (h : step s = .next t) :
    (∃ f : Fatal, t.run = .stopped f.cause ∧ t.pc = s.pc) ∨
      ∃ i, Runs s i ∧ (t.run = .running ∨ t.run = .stopped .breakpoint) ∧ t.pc = pcAfter i s := by
  obtain ⟨f, rfl⟩ | ⟨i, hi, ht⟩ := step_raises_or_runs h
  · exact .inl ⟨f, rfl, rfl⟩
  · obtain ⟨a, ha, rfl⟩ := exists_effect ht
    obtain ⟨f, hstop, hpc⟩ | ⟨hstop | hstop, hpc⟩ := ha.pc
    · exact .inl ⟨f, by simp [Effect.latch, hstop], hpc⟩
    · exact .inr ⟨i, hi, .inl (by simp [Effect.latch, hstop, hi.running]), hpc⟩
    · exact .inr ⟨i, hi, .inr (by simp [Effect.latch, hstop]), hpc⟩

theorem transferOffset_even {s : State} {i : Instr} {off : Word} (h : transferOffset s i = some off) :
    off.toNat % 2 = 0 := by
  cases i with
  | jal rd raw => cases h; exact signExtend_append_zero_even raw
  | beq rs1 rs2 raw | bne rs1 rs2 raw | blt rs1 rs2 raw | bge rs1 rs2 raw | bltu rs1 rs2 raw | bgeu rs1 rs2 raw =>
    obtain ⟨-, rfl⟩ := Option.ite_some_none_eq_some.1 h
    exact signExtend_append_zero_even raw
  | _ => cases h

theorem pcAfter_even (i : Instr) {s : State} (h : s.pc.toNat % 2 = 0) : (pcAfter i s).toNat % 2 = 0 := by
  unfold pcAfter
  cases hoff : transferOffset s i with
  | none => rw [Option.map_none, nextPc_none, BitVec.toNat_add, BitVec.toNat_ofNat]; omega
  | some off =>
    have := transferOffset_even hoff
    rw [Option.map_some, nextPc_some, BitVec.toNat_add]
    omega

/-! ## The statements -/

/-- Settles O53: a fatal stop keeps `pc`, and every offset that a completed cycle adds is even. -/
theorem stepKeepsPcEven : Obligations.StepKeepsPcEven := by
  unfold Obligations.StepKeepsPcEven
  intro s t heven h
  obtain ⟨-, -, hpc⟩ | ⟨i, -, -, hpc⟩ := step_pc h
  · rw [hpc]; exact heven
  · rw [hpc]; exact pcAfter_even i heven

/-- Settles O36: the effect of an instruction does not depend on the latch, which it stops or leaves as it was. -/
theorem runLatchHoldsTheStop : Obligations.RunLatchHoldsTheStop := by
  unfold Obligations.RunLatchHoldsTheStop
  refine ⟨fun s c hc t h => ?_, fun _ t _ => continueFlag_eq_false_iff t, fun i s t r hrun h => ?_⟩
  · simp [hc] at h
  · obtain ⟨a, ha, rfl⟩ := exists_effect h
    refine ⟨a.apply (s.setRun r), ha.runs _ ⟨rfl, rfl, fun _ _ => rfl⟩, rfl, fun j => ?_, .rfl, ?_⟩
    · by_cases hj : dest i = some j
      · exact ha.reg_dest hj _ _
      · rw [ha.reg_other hj, ha.reg_other hj, State.reg_setRun]
    · cases hstop : a.stop <;> simp [Effect.latch, hstop, hrun]

/-- Settles O37: by the effect of the instruction that ran; the conditions raised before one is found keep `pc`. -/
theorem pcContract : Obligations.PcContract := by
  unfold Obligations.PcContract
  intro s t h
  obtain ⟨f, hrun, hpc⟩ | ⟨i, hi, hrun, hpc⟩ := step_pc h
  · refine ⟨fun _ _ _ => hpc, fun hdone => ?_⟩
    simp [hrun, f.cause_ne_breakpoint] at hdone
  · refine ⟨fun c hc hne => ?_, fun _ => ⟨i, hi, ?_⟩⟩
    · simp [hc, hne] at hrun
    · rw [hpc, pcAfter]
      cases transferOffset s i <;> rfl

/-- Settles O42: an effect writes the destination of its instruction and no other register. -/
theorem onlyTheDestinationChanges : Obligations.OnlyTheDestinationChanges := by
  unfold Obligations.OnlyTheDestinationChanges
  refine fun s t h => ⟨t.reg_zero, fun r hr => ?_⟩
  obtain ⟨f, rfl⟩ | ⟨i, hi, ht⟩ := step_raises_or_runs h
  · exact absurd (raise_reg s f r) hr
  · obtain ⟨a, ha, rfl⟩ := exists_effect ht
    exact ⟨i, hi, by_contra fun hdest => hr (ha.reg_other hdest s)⟩

/-- Settles O43: states with the same sources undergo the same effect. -/
theorem resultsDependOnSourcesAlone : Obligations.ResultsDependOnSourcesAlone := by
  unfold Obligations.ResultsDependOnSourcesAlone
  intro i s s' t hpc henv hreg h
  obtain ⟨a, ha, rfl⟩ := exists_effect h
  exact ⟨a.apply s', ha.runs s' ⟨hpc, henv, hreg⟩, rfl, .rfl, fun _ hr => ha.reg_dest hr s s',
    fun _ hr => ha.reg_other hr s'⟩

/-- Settles O45, by the laws of the register file. -/
theorem registerZeroIsHardwired : Obligations.RegisterZeroIsHardwired := by
  unfold Obligations.RegisterZeroIsHardwired
  refine ⟨State.reg_zero, fun s v => ?_, fun s i v hi => RegFile.read_write_same s.x v hi,
    fun s i j v hj => RegFile.read_write_other s.x v hj⟩
  rw [State.setReg, RegFile.write_zero]

/-- Settles O49: the registers by what each reads after a create request, the rest by the request's definition. -/
theorem resetValues : Obligations.ResetValues := by
  unfold Obligations.ResetValues
  intro l e
  have hreg : ∀ r, (State.create l e).reg r = if r = 3 then l.dataBase else if r = 2 then l.stackTop - 4#32 else 0#32 :=
    RegFile.read_created l
  refine ⟨rfl, hreg 2, hreg 3, fun r h2 h3 => ?_, rfl, rfl⟩
  rw [hreg r, if_neg h3, if_neg h2]

end Sys2Proof.Claims
end

section
/-! PROOF. The external memory of 20_memory.md: the word a fetch answers (R41, R43), the fetch that faults (R48, R49), what
the core leaves of memory (R42), and what a fetch sees of a write by memory's owner (R53). -/

namespace Sys2Proof.Machine

/-- A word assembled little-endian gives back the byte at each place: the bytes below it are passed over. -/
theorem byteOfWord_wordOfBytes (bytes : Nat → Byte) {k : Nat} (hk : k < 4) :
    byteOfWord (wordOfBytes (bytes 0) (bytes 1) (bytes 2) (bytes 3)) k = bytes k := by
  unfold byteOfWord wordOfBytes
  interval_cases k
  · exact BitVec.extractLsb'_append_eq_right
  · rw [BitVec.extractLsb'_append_eq_of_le (by decide)]
    exact BitVec.extractLsb'_append_eq_right
  · rw [BitVec.extractLsb'_append_eq_of_le (by decide), BitVec.extractLsb'_append_eq_of_le (by decide)]
    exact BitVec.extractLsb'_append_eq_right
  · rw [BitVec.extractLsb'_append_eq_of_le (by decide), BitVec.extractLsb'_append_eq_of_le (by decide)]
    exact BitVec.extractLsb'_append_eq_left

theorem fetch_of_inRange {s : State} (h : spanInRange s.env.regions s.pc.toNat 4 = true) :
    fetch s = .word (wordOfBytes (s.env.mem.readByte s.pc.toNat) (s.env.mem.readByte (s.pc.toNat + 1))
      (s.env.mem.readByte (s.pc.toNat + 2)) (s.env.mem.readByte (s.pc.toNat + 3))) := by
  rw [fetch, memFetchWord_eq, if_pos h]

theorem step_fetchFault {s : State} (hrun : s.run = .running) (h : spanInRange s.env.regions s.pc.toNat 4 = false) :
    step s = .next (raise (.memoryFault s.pc) s) := by
  have hfetch : fetch s = .outOfRange s.pc := by rw [fetch, memFetchWord_eq, h]; rfl
  rw [step_running hrun, cycle, hfetch]

end Sys2Proof.Machine

namespace Sys2Proof.Claims
open Sys2Proof.Machine

/-- The span test of the fetch, in the words of the statements. -/
theorem fetchSpan_iff (s : State) :
    spanInRange s.env.regions s.pc.toNat 4 = true ↔
      s.pc.toNat + 4 ≤ 2 ^ 32 ∧ ∀ k, k < 4 → Mapped s (s.pc.toNat + k) := by
  simp only [spanInRange_iff, mapped_iff]

theorem sameMemory_of_env {s t : State} (hmem : t.env.mem = s.env.mem) (hregions : t.env.regions = s.env.regions) :
    SameMemory s t :=
  ⟨fun a => congrArg (Memory.readByte · a) hmem, hmem, hregions⟩

theorem fatalStop_raise (s : State) (f : Fatal) : FatalStop s (raise f s) f :=
  ⟨rfl, fun _ => rfl, sameMemory_of_env rfl rfl, rfl, rfl, rfl, rfl, rfl⟩

/-- ECALL leaves memory as the handler does, and the handler writes none (46_system.md R178). -/
theorem execEcall_sameMemory {s t : State} (h : execEcall s = .next t) : SameMemory s t := by
  obtain ⟨ans, e, hsys, hans⟩ := execEcall_cases h
  obtain ⟨hmem, hregions, -⟩ := syscall_cases hsys
  obtain ⟨-, rfl⟩ | ⟨-, rfl⟩ | ⟨ad, -, rfl⟩ := hans <;> exact sameMemory_of_env hmem hregions

theorem exec_sameMemory {i : Instr} {s t : State} (h : exec i s = .next t) : SameMemory s t := by
  obtain ⟨y, -, rfl⟩ | ⟨-, rfl⟩ | ⟨f, w, -, -, -, rfl⟩ | ⟨-, hecall⟩ := exec_cases h
  · exact sameMemory_of_env (by rw [commit_env]) (by rw [commit_env])
  · exact sameMemory_of_env rfl rfl
  · exact sameMemory_of_env rfl rfl
  · exact execEcall_sameMemory hecall

/-- Settles O34: byte `k` of the assembled word is the byte at `pc + k`. -/
theorem fetchIsLittleEndian : Obligations.FetchIsLittleEndian := by
  unfold Obligations.FetchIsLittleEndian
  intro s htop hmapped
  exact ⟨_, fetch_of_inRange ((fetchSpan_iff s).2 ⟨htop, hmapped⟩),
    fun _ hk => byteOfWord_wordOfBytes (fun j => byteAt s (s.pc.toNat + j)) hk⟩

/-- Settles O35: either hypothesis fails the span test of the fetch. -/
theorem fetchFaults : Obligations.FetchFaults := by
  unfold Obligations.FetchFaults
  intro s hrun hout
  have hspan : spanInRange s.env.regions s.pc.toNat 4 = false := by
    rw [Bool.eq_false_iff, ne_eq, fetchSpan_iff]
    rintro ⟨htop, hmapped⟩
    obtain ⟨k, hk, hnot⟩ | hpc := hout
    · exact hnot (hmapped k hk)
    · omega
  exact ⟨_, step_fetchFault hrun hspan, fatalStop_raise s _⟩

/-- Settles O41: a cycle raises a condition, which writes no memory, or executes an instruction, and none writes any. -/
theorem coreNeverWritesMemory : Obligations.CoreNeverWritesMemory := by
  unfold Obligations.CoreNeverWritesMemory
  intro s t h
  obtain ⟨f, rfl⟩ | ⟨i, -, hexec⟩ := step_raises_or_runs h
  · exact sameMemory_of_env rfl rfl
  · exact exec_sameMemory hexec

/-- Settles O47: the fetch after the write is little-endian too (O34), over the memory with the one byte changed. -/
theorem fetchSeesHostWrites : Obligations.FetchSeesHostWrites := by
  unfold Obligations.FetchSeesHostWrites
  intro s a b k hwf htop hmapped hk ha
  obtain ⟨w, hfetch, hbytes⟩ :=
    fetchIsLittleEndian (s.setEnv { s.env with mem := s.env.mem.writeByte a.toNat b }) htop hmapped
  refine ⟨_, w, rfl, hfetch, ?_, fun j hj hne => ?_⟩
  · rw [hbytes k hk, State.setEnv_pc, ← ha]
    exact Memory.readByte_writeByte_same hwf
  · rw [hbytes j hj, State.setEnv_pc]
    exact Memory.readByte_writeByte_other (by omega)

end Sys2Proof.Claims
end

section
/-! PROOF. The round trips of 30_encoding.md: the word of the decoder's fields and back, layout by layout (R62 to R67), and
what the router reads in a word (R76 to R79). -/

namespace Sys2Proof

/-! ## Slices of a word -/

@[simp] theorem ofFin_rdOf (w : Word) : BitVec.ofFin (w := 5) (rdOf w) = w.extractLsb' 7 5 := rfl
@[simp] theorem ofFin_rs1Of (w : Word) : BitVec.ofFin (w := 5) (rs1Of w) = w.extractLsb' 15 5 := rfl
@[simp] theorem ofFin_rs2Of (w : Word) : BitVec.ofFin (w := 5) (rs2Of w) = w.extractLsb' 20 5 := rfl

/-- Words that agree under a mask agree in every slice that the mask covers. -/
theorem extractLsb'_congr_of_and {w v m : Word} {start len : Nat} (hm : m.extractLsb' start len = BitVec.allOnes len)
    (h : w &&& m = v &&& m) : w.extractLsb' start len = v.extractLsb' start len := by
  simpa only [BitVec.extractLsb'_and, hm, BitVec.and_allOnes] using congrArg (BitVec.extractLsb' start len) h

/-- A word with a masked value has that value in every slice that the mask covers. -/
theorem extractLsb'_of_key {w m p : Word} {start len : Nat} (hm : m.extractLsb' start len = BitVec.allOnes len)
    (h : w &&& m = p) : w.extractLsb' start len = p.extractLsb' start len :=
  extractLsb'_congr_of_and hm (by rw [← h, BitVec.and_assoc, BitVec.and_self])

/-- Masking all but the low bits away keeps the low slice. -/
theorem and_lowOnes {m k : Nat} (x : BitVec (m + k)) : x &&& (0#m ++ BitVec.allOnes k) = 0#m ++ x.extractLsb' 0 k := by
  conv_lhs => rw [← BitVec.extractLsb'_append_extractLsb' (x := x)]
  rw [BitVec.and_append, BitVec.and_zero, BitVec.and_allOnes]

/-! ## The word of the decoder's fields -/

/-- The word that carries these fields in the layout of their format (30_encoding.md R62 to R67). -/
def Fields.word : Fields → Word
  | .registerRegister funct7 rs2 rs1 funct3 rd => encodeR funct7 rs2 rs1 funct3 rd 0x33#7
  | .branch imm12 imm5_10 rs2 rs1 funct3 imm1_4 imm11 =>
      imm12 ++ imm5_10 ++ BitVec.ofFin (w := 5) rs2 ++ BitVec.ofFin (w := 5) rs1 ++ funct3 ++ imm1_4 ++ imm11 ++ 0x63#7
  | .immediate imm rs1 funct3 rd => encodeI imm rs1 funct3 rd 0x13#7
  | .load imm rs1 funct3 rd => encodeI imm rs1 funct3 rd 0x03#7
  | .store imm11_5 rs2 rs1 funct3 imm4_0 =>
      imm11_5 ++ BitVec.ofFin (w := 5) rs2 ++ BitVec.ofFin (w := 5) rs1 ++ funct3 ++ imm4_0 ++ 0x23#7
  | .loadUpperImmediate imm31_12 rd => encodeU imm31_12 rd 0x37#7
  | .addUpperImmediateToPc imm31_12 rd => encodeU imm31_12 rd 0x17#7
  | .jumpAndLink imm20 imm1_10 imm11 imm12_19 rd =>
      imm20 ++ imm1_10 ++ imm11 ++ imm12_19 ++ BitVec.ofFin (w := 5) rd ++ 0x6F#7
  | .jumpAndLinkRegister imm rs1 funct3 rd => encodeI imm rs1 funct3 rd 0x67#7
  | .fence imm rs1 funct3 rd => encodeI imm rs1 funct3 rd 0x0F#7
  | .system imm rs1 funct3 rd => encodeI imm rs1 funct3 rd 0x73#7
  | .unrecognized opcode => 0#25 ++ opcode

/-- The slices of a layout lie side by side and make up the word. -/
theorem word_fieldsUnder {w : Word} {f : Format} (h : opcodeOf w = f.opcode) : (fieldsUnder w f).word = w := by
  cases f
  all_goals
    simp only [fieldsUnder, Fields.word, encodeR, encodeI, encodeU]
    simp only [Format.opcode] at h
    simp only [← h, opcodeOf, funct7Of, funct3Of, immIOf, ofFin_rdOf, ofFin_rs1Of, ofFin_rs2Of,
      BitVec.extractLsb'_append_extractLsb'_eq_extractLsb', BitVec.extractLsb'_eq_self]

/-- Every field is read back from the slice it was put into. -/
theorem decodeFields_word {fs : Fields} {i : Instr} (h : select fs = some i) : decodeFields fs.word = fs := by
  cases fs with
  | unrecognized op => cases h
  | _ =>
    simp only [decodeFields, formatOf, Format.opcode, BitVec.reduceEq, if_true, if_false, fieldsUnder, Fields.word,
      encodeR, encodeI, encodeU, opcodeOf, funct7Of, rs2Of, rs1Of, funct3Of, rdOf, immIOf, Nat.reduceSub,
      Nat.reduceLeDiff, BitVec.extractLsb'_append_eq_of_le, BitVec.extractLsb'_append_eq_right,
      BitVec.extractLsb'_eq_self]

/-! ## The router -/

theorem decodeFields_of_format {w : Word} {f : Format} (h : formatOf (opcodeOf w) = some f) :
    decodeFields w = fieldsUnder w f := by
  rw [decodeFields, h]

theorem formatOf_of_opcode {w : Word} {f : Format} (h : opcodeOf w = f.opcode) : formatOf (opcodeOf w) = some f := by
  rw [h, formatOf_opcode]

/-- The router reads an instruction where the key of the decoder's fields selects it. -/
theorem route_eq_instr_iff {w : Word} {i : Instr} : route w = .instr i ↔ select (decodeFields w) = some i := by
  cases hf : formatOf (opcodeOf w) with
  | none => simp [route, decodeFields, hf, select]
  | some f => cases hs : select (decodeFields w) <;> simp [route, hf, hs]

theorem route_of_select {w : Word} {f : Format} {i : Instr} (hop : opcodeOf w = f.opcode)
    (h : select (fieldsUnder w f) = some i) : route w = .instr i := by
  rw [route_eq_instr_iff, decodeFields_of_format (formatOf_of_opcode hop), h]

theorem select_of_route {w : Word} {f : Format} {i : Instr} (hop : opcodeOf w = f.opcode)
    (h : route w = .instr i) : select (fieldsUnder w f) = some i := by
  rw [← decodeFields_of_format (formatOf_of_opcode hop), route_eq_instr_iff.1 h]

theorem route_word {fs : Fields} {i : Instr} (h : select fs = some i) : route fs.word = .instr i := by
  rw [route_eq_instr_iff, decodeFields_word h, h]

theorem select_eq_none_iff (fs : Fields) : select fs = none ↔ fs.wellFormed = false := by
  rw [← select_isSome, Option.isSome_eq_false_iff, Option.isNone_iff_eq_none]

theorem route_eq_unmatched_iff {w k : Word} {f : Format} :
    route w = .unmatched f k ↔
      opcodeOf w = f.opcode ∧ (fieldsUnder w f).wellFormed = false ∧ w &&& f.keyMask = k := by
  constructor
  · intro h
    cases hf : formatOf (opcodeOf w) with
    | none => rw [route_of_unrecognized hf] at h; cases h
    | some g =>
      rw [route_of_format hf] at h
      cases hs : select (fieldsUnder w g) with
      | some i => simp [hs] at h
      | none =>
        obtain ⟨rfl, hk⟩ : g = f ∧ w &&& g.keyMask = k := by simpa [hs] using h
        exact ⟨opcode_of_formatOf hf, (select_eq_none_iff _).1 hs, hk⟩
  · rintro ⟨hop, hwf, rfl⟩
    rw [route_of_format (formatOf_of_opcode hop), (select_eq_none_iff _).2 hwf]

theorem format_of_unrecognized {w v : Word} {op : BitVec 7} (h : route w = .unrecognized op v) :
    formatOf (opcodeOf w) = none := by
  cases hf : formatOf (opcodeOf w) with
  | none => rfl
  | some f =>
    rw [route_of_format hf] at h
    cases hs : select (fieldsUnder w f) <;> simp [hs] at h

/-! ## The canonical word -/

/-- The fields of a branch's canonical word. -/
def branchFields (raw : BitVec 12) (rs2 rs1 : RegIdx) (funct3 : BitVec 3) : Fields :=
  .branch (raw.extractLsb' 11 1) (raw.extractLsb' 4 6) rs2 rs1 funct3 (raw.extractLsb' 0 4) (raw.extractLsb' 10 1)

/-- The fields of an instruction's canonical word. -/
def Instr.fields : Instr → Fields
  | .add rd rs1 rs2 => .registerRegister 0b0000000#7 rs2 rs1 0b000#3 rd
  | .sub rd rs1 rs2 => .registerRegister 0b0100000#7 rs2 rs1 0b000#3 rd
  | .xor rd rs1 rs2 => .registerRegister 0b0000000#7 rs2 rs1 0b100#3 rd
  | .addi rd rs1 imm => .immediate imm rs1 0b000#3 rd
  | .slli rd rs1 shamt => .immediate (0b0000000#7 ++ shamt) rs1 0b001#3 rd
  | .beq rs1 rs2 raw => branchFields raw rs2 rs1 0b000#3
  | .bne rs1 rs2 raw => branchFields raw rs2 rs1 0b001#3
  | .blt rs1 rs2 raw => branchFields raw rs2 rs1 0b100#3
  | .bge rs1 rs2 raw => branchFields raw rs2 rs1 0b101#3
  | .bltu rs1 rs2 raw => branchFields raw rs2 rs1 0b110#3
  | .bgeu rs1 rs2 raw => branchFields raw rs2 rs1 0b111#3
  | .jal rd raw =>
      .jumpAndLink (raw.extractLsb' 19 1) (raw.extractLsb' 0 10) (raw.extractLsb' 10 1) (raw.extractLsb' 11 8) rd
  | .lui rd imm20 => .loadUpperImmediate imm20 rd
  | .auipc rd imm20 => .addUpperImmediateToPc imm20 rd
  | .ecall => .system 0#12 0 0#3 0
  | .ebreak => .system 1#12 0 0#3 0
  | .load imm rs1 funct3 rd => .load imm rs1 funct3 rd
  | .store imm rs2 rs1 funct3 => .store (imm.extractLsb' 5 7) rs2 rs1 funct3 (imm.extractLsb' 0 5)
  | .fence imm rs1 funct3 rd => .fence imm rs1 funct3 rd
  | .jalr imm rs1 funct3 rd => .jumpAndLinkRegister imm rs1 funct3 rd

theorem word_fields (i : Instr) : i.fields.word = encode i := by cases i <;> rfl

theorem branchImmediate_slices (raw : BitVec 12) :
    raw.extractLsb' 11 1 ++ raw.extractLsb' 10 1 ++ raw.extractLsb' 4 6 ++ raw.extractLsb' 0 4 = raw := by
  simp only [BitVec.extractLsb'_append_extractLsb'_eq_extractLsb', BitVec.extractLsb'_eq_self]

theorem jumpImmediate_slices (raw : BitVec 20) :
    raw.extractLsb' 19 1 ++ raw.extractLsb' 11 8 ++ raw.extractLsb' 10 1 ++ raw.extractLsb' 0 10 = raw := by
  simp only [BitVec.extractLsb'_append_extractLsb'_eq_extractLsb', BitVec.extractLsb'_eq_self]

/-- The key of the canonical word's fields selects the instruction, with the sliced immediates put together again. -/
theorem select_fields (i : Instr) : select i.fields = some i := by
  cases i with
  | slli => rw [Instr.fields, select, BitVec.extractLsb'_append_eq_right]; rfl
  | beq | bne | blt | bge | bltu | bgeu => rw [Instr.fields, branchFields, select, branchImmediate_slices]; rfl
  | jal => rw [Instr.fields, select, jumpImmediate_slices]
  | store => rw [Instr.fields, select, BitVec.extractLsb'_append_extractLsb']
  | _ => rfl

/-! ## Fields whose word has a sliced immediate or dropped bits -/

theorem encodeB_slices (imm12 imm11 : BitVec 1) (imm5_10 : BitVec 6) (imm1_4 : BitVec 4) (rs2 rs1 : RegIdx)
    (funct3 : BitVec 3) : encodeB (imm12 ++ imm11 ++ imm5_10 ++ imm1_4) rs2 rs1 funct3 0x63#7 =
      (Fields.branch imm12 imm5_10 rs2 rs1 funct3 imm1_4 imm11).word := by
  simp only [encodeB, Fields.word, Nat.reduceSub, Nat.reduceLeDiff, BitVec.extractLsb'_append_eq_of_le,
    BitVec.extractLsb'_append_eq_right, BitVec.extractLsb'_eq_self]

theorem encodeJ_slices (imm20 imm11 : BitVec 1) (imm12_19 : BitVec 8) (imm1_10 : BitVec 10) (rd : RegIdx) :
    encodeJ (imm20 ++ imm12_19 ++ imm11 ++ imm1_10) rd 0x6F#7 =
      (Fields.jumpAndLink imm20 imm1_10 imm11 imm12_19 rd).word := by
  simp only [encodeJ, Fields.word, Nat.reduceSub, Nat.reduceLeDiff, BitVec.extractLsb'_append_eq_of_le,
    BitVec.extractLsb'_append_eq_right, BitVec.extractLsb'_eq_self]

theorem encodeS_slices (imm11_5 : BitVec 7) (imm4_0 : BitVec 5) (rs2 rs1 : RegIdx) (funct3 : BitVec 3) :
    encodeS (imm11_5 ++ imm4_0) rs2 rs1 funct3 0x23#7 = (Fields.store imm11_5 rs2 rs1 funct3 imm4_0).word := by
  rw [encodeS, BitVec.extractLsb'_append_eq_left, BitVec.extractLsb'_append_eq_right, Fields.word]

/-- Masking a word of the immediate layout masks each field. -/
theorem and_layoutI (imm imm' : BitVec 12) (r r' d d' : BitVec 5) (f3 f3' : BitVec 3) (op op' : BitVec 7) :
    (imm ++ r ++ f3 ++ d ++ op) &&& (imm' ++ r' ++ f3' ++ d' ++ op') =
      (imm &&& imm') ++ (r &&& r') ++ (f3 &&& f3') ++ (d &&& d') ++ (op &&& op') := by
  simp only [BitVec.and_append]

/-- The mask of SLLI clears the upper seven bits of the immediate. -/
theorem encodeI_and_slliBits (imm : BitVec 12) (rs1 rd : RegIdx) (f3 : BitVec 3) (op : BitVec 7) :
    encodeI imm rs1 f3 rd op &&& 0x01FFFFFF#32 = encodeI (0#7 ++ imm.extractLsb' 0 5) rs1 f3 rd op := by
  refine (and_layoutI _ (0#7 ++ BitVec.allOnes 5) _ (BitVec.allOnes 5) _ (BitVec.allOnes 5) _ (BitVec.allOnes 3) _
    (BitVec.allOnes 7)).trans ?_
  rw [and_lowOnes (m := 7) (k := 5)]
  simp only [BitVec.and_allOnes]
  rfl

/-- The mask of ECALL and EBREAK keeps the opcode and the lowest bit of the immediate. -/
theorem encodeI_and_systemBits (imm : BitVec 12) (rs1 rd : RegIdx) (f3 : BitVec 3) (op : BitVec 7) :
    encodeI imm rs1 f3 rd op &&& 0x0010007F#32 = encodeI (0#11 ++ imm.extractLsb' 0 1) 0 0#3 0 op := by
  refine (and_layoutI _ (0#11 ++ BitVec.allOnes 1) _ 0#5 _ 0#5 _ 0#3 _ (BitVec.allOnes 7)).trans ?_
  rw [and_lowOnes (m := 11) (k := 1)]
  simp only [BitVec.and_allOnes, BitVec.and_zero]
  rfl

end Sys2Proof

namespace Sys2Proof.Claims

/-! ## The round trips -/

/-- Settles O2: `encode i` is the word of the fields that select `i`. -/
theorem decodeOfEncodeIsIdentity : Obligations.DecodeOfEncodeIsIdentity := by
  unfold Obligations.DecodeOfEncodeIsIdentity
  intro i
  rw [← word_fields]
  exact route_word (select_fields i)

/-- The canonical word of the instruction that fields select is their word, with the bits cleared that `Instr` drops. -/
theorem encode_of_select {fs : Fields} {i : Instr} (h : select fs = some i) : encode i = fs.word &&& keptBits i := by
  cases fs with
  | registerRegister =>
    rw [select] at h
    split_ifs at h with hk hk hk
    all_goals
      obtain ⟨rfl, rfl⟩ := hk
      cases h
      exact BitVec.and_allOnes.symm
  | branch =>
    rw [select] at h
    split_ifs at h with hk hk hk hk hk hk
    all_goals
      subst hk
      cases h
      exact (encodeB_slices ..).trans BitVec.and_allOnes.symm
  | immediate =>
    rw [select] at h
    split_ifs at h with hk hk
    · subst hk; cases h
      exact BitVec.and_allOnes.symm
    · subst hk; cases h
      exact (encodeI_and_slliBits ..).symm
  | system imm =>
    rw [select] at h
    split_ifs at h with hbit
    · cases h
      rw [Fields.word, keptBits, encodeI_and_systemBits, hbit]
      rfl
    · cases h
      rw [Fields.word, keptBits, encodeI_and_systemBits, (BitVec.eq_zero_or_eq_one _).resolve_left hbit]
      rfl
  | jumpAndLink => cases h; exact (encodeJ_slices ..).trans BitVec.and_allOnes.symm
  | store => cases h; exact (encodeS_slices ..).trans BitVec.and_allOnes.symm
  | unrecognized => cases h
  | _ => cases h; exact BitVec.and_allOnes.symm

/-- Settles O3: the decoder's fields make up the word again, and their instruction's canonical word is theirs with the
dropped bits cleared. -/
theorem encodeOfDecodeClearsIgnoredBits : Obligations.EncodeOfDecodeClearsIgnoredBits := by
  unfold Obligations.EncodeOfDecodeClearsIgnoredBits
  intro w i h
  cases hf : formatOf (opcodeOf w) with
  | none => rw [route_of_unrecognized hf] at h; cases h
  | some f =>
    have hop := opcode_of_formatOf hf
    rw [encode_of_select (select_of_route hop h), word_fieldsUnder hop]

end Sys2Proof.Claims
end

section
/-! PROOF. The bits of a word that decide its instruction, its row of the opcode map or its stop (30_encoding.md R69, R76
to R78), and the offsets of branches and jumps (R72, R73). -/

namespace Sys2Proof

/-! ## The key -/

/-- A format's key holds its opcode. -/
theorem opcode_in_keyMask (f : Format) : f.keyMask.extractLsb' 0 7 = BitVec.allOnes 7 := by cases f <;> rfl

theorem systemBit_eq (w : Word) : (immIOf w).extractLsb' 0 1 = w.extractLsb' 20 1 := by
  ext i hi
  interval_cases i
  simp [immIOf]

/-- Under one format the key alone decides the row of the opcode map (30_encoding.md R69, R77). -/
theorem mnemonic_congr_of_key {w v : Word} {f : Format} (h : w &&& f.keyMask = v &&& f.keyMask) :
    (select (fieldsUnder w f)).map Instr.mnemonic = (select (fieldsUnder v f)).map Instr.mnemonic := by
  cases f with
  | registerRegister =>
    have hf3 : funct3Of w = funct3Of v := extractLsb'_congr_of_and rfl h
    have hf7 : funct7Of w = funct7Of v := extractLsb'_congr_of_and rfl h
    simp only [fieldsUnder, select, hf3, hf7]
    split_ifs <;> rfl
  | immediate | branch =>
    have hf3 : funct3Of w = funct3Of v := extractLsb'_congr_of_and rfl h
    simp only [fieldsUnder, select, hf3]
    split_ifs <;> rfl
  | system =>
    have hbit : w.extractLsb' 20 1 = v.extractLsb' 20 1 := extractLsb'_congr_of_and rfl h
    simp only [fieldsUnder, select, systemBit_eq, hbit]
  | _ => rfl

/-! ## The opcode map -/

/-- Each row's mask is the key mask of its pattern's format, and the pattern is a word of the row. -/
theorem opcodeTable_rows : ∀ r ∈ opcodeTable,
    (formatOf (opcodeOf r.pattern)).map Format.keyMask = some r.mask ∧ r.pattern &&& r.mask = r.pattern ∧
      (select (decodeFields r.pattern)).map Instr.mnemonic = some r.mnemonic := by
  decide

theorem mnemonics_nodup : (opcodeTable.map OpcodeRow.mnemonic).Nodup := by decide

theorem matchesOwnRow (i : Instr) : Laws.MatchesOwnRow.Statement i :=
  match i with
  | .add .. => Laws.MatchesOwnRow.add ..
  | .sub .. => Laws.MatchesOwnRow.sub ..
  | .xor .. => Laws.MatchesOwnRow.xor ..
  | .addi .. => Laws.MatchesOwnRow.addi ..
  | .slli .. => Laws.MatchesOwnRow.slli ..
  | .beq .. => Laws.MatchesOwnRow.beq ..
  | .bne .. => Laws.MatchesOwnRow.bne ..
  | .blt .. => Laws.MatchesOwnRow.blt ..
  | .bge .. => Laws.MatchesOwnRow.bge ..
  | .bltu .. => Laws.MatchesOwnRow.bltu ..
  | .bgeu .. => Laws.MatchesOwnRow.bgeu ..
  | .jal .. => Laws.MatchesOwnRow.jal ..
  | .lui .. => Laws.MatchesOwnRow.lui ..
  | .auipc .. => Laws.MatchesOwnRow.auipc ..
  | .ecall => Laws.MatchesOwnRow.ecall
  | .ebreak => Laws.MatchesOwnRow.ebreak
  | .load .. => Laws.MatchesOwnRow.load ..
  | .store .. => Laws.MatchesOwnRow.store ..
  | .fence .. => Laws.MatchesOwnRow.fence ..
  | .jalr .. => Laws.MatchesOwnRow.jalr ..

/-- A word that a row selects is routed to an instruction of that row. -/
theorem route_of_selects {r : OpcodeRow} {w : Word} (hr : r ∈ opcodeTable) (h : r.selects w = true) :
    ∃ i, route w = .instr i ∧ i.mnemonic = r.mnemonic := by
  obtain ⟨hmask, hpattern, hmnemonic⟩ := opcodeTable_rows r hr
  obtain ⟨f, hf, hkey⟩ := Option.map_eq_some_iff.1 hmask
  have hw : w &&& f.keyMask = r.pattern := by rw [hkey]; exact beq_iff_eq.1 h
  have hop : opcodeOf w = opcodeOf r.pattern := extractLsb'_of_key (opcode_in_keyMask f) hw
  have hsame : w &&& f.keyMask = r.pattern &&& f.keyMask := by rw [hw, hkey, hpattern]
  rw [decodeFields_of_format hf, ← mnemonic_congr_of_key hsame, Option.map_eq_some_iff] at hmnemonic
  obtain ⟨i, hi, hmn⟩ := hmnemonic
  exact ⟨i, route_of_select (hop.trans (opcode_of_formatOf hf)) hi, hmn⟩

end Sys2Proof

namespace Sys2Proof.Claims
open Sys2Proof.Machine

/-! ## Rows and instructions -/

/-- The bits that select an instruction's row are among those it keeps. -/
theorem keptBits_and_mask {i : Instr} {r : OpcodeRow} (hr : r ∈ opcodeTable) (h : r.mnemonic = i.mnemonic) :
    keptBits i &&& r.mask = r.mask := by
  cases i with
  | slli =>
    have : ∀ r ∈ opcodeTable, r.mnemonic = "SLLI" → 0x01FFFFFF#32 &&& r.mask = r.mask := by decide
    exact this r hr h
  | ecall | ebreak =>
    have : ∀ r ∈ opcodeTable, r.mnemonic = "ECALL" ∨ r.mnemonic = "EBREAK" → 0x0010007F#32 &&& r.mask = r.mask := by
      decide
    exact this r hr (by simp [h, Instr.mnemonic])
  | _ => exact BitVec.allOnes_and

/-- The rows that select an instruction's words are those of its mnemonic. -/
theorem selects_iff_of_route {w : Word} {i : Instr} (h : route w = .instr i) {r : OpcodeRow} (hr : r ∈ opcodeTable) :
    r.selects w = true ↔ r.mnemonic = i.mnemonic := by
  constructor
  · intro hsel
    obtain ⟨j, hj, hmn⟩ := route_of_selects hr hsel
    obtain rfl : i = j := Routed.instr.inj (h.symm.trans hj)
    exact hmn.symm
  · intro hmn
    obtain ⟨r', hr', hmn', hsel⟩ := matchesOwnRow i
    obtain rfl : r = r' := List.inj_on_of_nodup_map mnemonics_nodup hr hr' (hmn.trans hmn'.symm)
    rw [encodeOfDecodeClearsIgnoredBits w i h, OpcodeRow.selects, BitVec.and_assoc, keptBits_and_mask hr hmn] at hsel
    exact hsel

theorem selectedMnemonics_of_route {w : Word} {i : Instr} (h : route w = .instr i) :
    (opcodeTable.filter (fun r => r.selects w)).map (fun r => r.mnemonic) = [i.mnemonic] := by
  obtain ⟨r, hr, hmn, -⟩ := matchesOwnRow i
  have hmem : i.mnemonic ∈ opcodeTable.map OpcodeRow.mnemonic := hmn ▸ List.mem_map_of_mem hr
  have hrows : opcodeTable.filter (fun r => r.selects w) = opcodeTable.filter ((· == i.mnemonic) ∘ OpcodeRow.mnemonic) :=
    List.filter_congr fun r hr => Bool.eq_iff_iff.2 ((selects_iff_of_route h hr).trans beq_iff_eq.symm)
  calc (opcodeTable.filter (fun r => r.selects w)).map OpcodeRow.mnemonic
      = (opcodeTable.map OpcodeRow.mnemonic).filter (· == i.mnemonic) := by rw [hrows, List.filter_map]
    _ = [i.mnemonic] := by rw [List.filter_beq, List.count_eq_one_of_mem mnemonics_nodup hmem]; rfl

/-- No row selects a word that is no instruction. -/
theorem selects_eq_false_iff (w : Word) :
    (∀ r ∈ opcodeTable, r.selects w = false) ↔ ∀ i, route w ≠ .instr i := by
  constructor
  · intro hnone i hi
    obtain ⟨r, hr, hmn, -⟩ := matchesOwnRow i
    exact absurd ((selects_iff_of_route hi hr).2 hmn) (by simp [hnone r hr])
  · intro hno r hr
    by_contra hsel
    obtain ⟨i, hi, -⟩ := route_of_selects hr (eq_true_of_ne_false hsel)
    exact hno i hi

theorem opcode_of_unmatched {w k : Word} {f : Format} (h : route w = .unmatched f k) :
    opcodeOf w ∈ [0x33#7, 0x13#7, 0x63#7] := by
  obtain ⟨hop, hwf, -⟩ := route_eq_unmatched_iff.1 h
  rw [hop]
  cases f with
  | registerRegister | immediate | branch => decide
  | _ => cases hwf

theorem opcode_of_unrecognized {w v : Word} {op : BitVec 7} (h : route w = .unrecognized op v) :
    opcodeOf w ∉ [0x33#7, 0x13#7, 0x63#7] := by
  have : ∀ op ∈ [0x33#7, 0x13#7, 0x63#7], formatOf op ≠ none := by decide
  exact fun hmem => this _ hmem (format_of_unrecognized h)

/-- Settles O5: a word of a row is routed to an instruction of that row, and an instruction's words are selected by its
own row, which is the only one of its mnemonic. -/
theorem opcodeMapAgreesWithRouter : Obligations.OpcodeMapAgreesWithRouter := by
  unfold Obligations.OpcodeMapAgreesWithRouter
  intro w
  have hnone := selects_eq_false_iff w
  cases hr : route w with
  | instr i => exact ⟨selectedMnemonics_of_route hr, by simp [hnone, hr], by simp [hnone, hr]⟩
  | unmatched f k =>
    have hno : ∀ r ∈ opcodeTable, r.selects w = false := hnone.2 (by simp [hr])
    have hop := opcode_of_unmatched hr
    exact ⟨by simpa using hno, iff_of_true ⟨f, k, rfl⟩ ⟨hno, hop⟩, iff_of_false (by simp) fun h => h.2 hop⟩
  | unrecognized op v =>
    have hno : ∀ r ∈ opcodeTable, r.selects w = false := hnone.2 (by simp [hr])
    have hop := opcode_of_unrecognized hr
    exact ⟨by simpa using hno, iff_of_false (by simp) fun h => hop h.2, iff_of_true ⟨op, v, rfl⟩ ⟨hno, hop⟩⟩

/-! ## Ignored bits -/

theorem exists_route_slli {w : Word} (h : w &&& 0x0000707F#32 = 0x00001013#32) :
    ∃ i, route w = .instr i ∧ keptBits i = 0x01FFFFFF#32 := by
  have hop : opcodeOf w = 0x13#7 := extractLsb'_of_key rfl h
  have hf3 : funct3Of w = 1#3 := extractLsb'_of_key rfl h
  exact ⟨_, route_of_select (f := .immediate) hop (by rw [fieldsUnder, select, hf3]; rfl), rfl⟩

theorem exists_route_addi {w : Word} (h : w &&& 0x0000707F#32 = 0x00000013#32) :
    ∃ i, route w = .instr i ∧ keptBits i = BitVec.allOnes 32 := by
  have hop : opcodeOf w = 0x13#7 := extractLsb'_of_key rfl h
  have hf3 : funct3Of w = 0#3 := extractLsb'_of_key rfl h
  exact ⟨_, route_of_select (f := .immediate) hop (by rw [fieldsUnder, select, hf3]; rfl), rfl⟩

theorem exists_route_system {w : Word} (h : opcodeOf w = 0x73#7) :
    ∃ i, route w = .instr i ∧ keptBits i = 0x0010007F#32 := by
  by_cases hbit : (immIOf w).extractLsb' 0 1 = 0b0#1
  · exact ⟨.ecall, route_of_select (f := .system) h (if_pos hbit), rfl⟩
  · exact ⟨.ebreak, route_of_select (f := .system) h (if_neg hbit), rfl⟩

/-- Words that agree in the bits that their instructions keep have the same canonical word, which decodes to both. -/
theorem route_congr_of_keptBits {w v : Word} {i j : Instr} (hw : route w = .instr i) (hv : route v = .instr j)
    (h : w &&& keptBits i = v &&& keptBits j) : route v = route w := by
  have hcanonical : encode i = encode j := by
    rw [encodeOfDecodeClearsIgnoredBits w i hw, encodeOfDecodeClearsIgnoredBits v j hv, h]
  rw [hw, hv, ← decodeOfEncodeIsIdentity i, ← decodeOfEncodeIsIdentity j, hcanonical]

/-- Settles O4: the kept bits decide an instruction; a placeholder's opcode alone decides its row. -/
theorem ignoredBitsSelectNothing : Obligations.IgnoredBitsSelectNothing := by
  unfold Obligations.IgnoredBitsSelectNothing
  refine ⟨fun w v hw h => ?_, fun w v hw h => ?_, fun w v hw h => ?_, fun w v hw h => ?_⟩
  · have hv : v &&& 0x0000707F#32 = 0x00001013#32 := by
      calc v &&& 0x0000707F#32 = v &&& 0x01FFFFFF#32 &&& 0x0000707F#32 := by rw [BitVec.and_assoc]; rfl
        _ = w &&& 0x0000707F#32 := by rw [← h, BitVec.and_assoc]; rfl
        _ = 0x00001013#32 := hw
    obtain ⟨i, hi, hki⟩ := exists_route_slli hw
    obtain ⟨j, hj, hkj⟩ := exists_route_slli hv
    exact route_congr_of_keptBits hi hj (by rw [hki, hkj, h])
  · have hv : opcodeOf v = 0x73#7 := (extractLsb'_congr_of_and rfl h).symm.trans hw
    obtain ⟨i, hi, hki⟩ := exists_route_system hw
    obtain ⟨j, hj, hkj⟩ := exists_route_system hv
    exact route_congr_of_keptBits hi hj (by rw [hki, hkj, h])
  · obtain ⟨i, hi, hk⟩ := exists_route_addi hw
    have hencode : ∀ u, route u = .instr i → encode i = u := fun u hu => by
      rw [encodeOfDecodeClearsIgnoredBits u i hu, hk, BitVec.and_allOnes]
    exact (hencode v (h.trans hi)).symm.trans (hencode w hi)
  · simp only [List.mem_cons, List.not_mem_nil, or_false] at hw
    obtain hw | hw | hw | hw := hw
    · exact ⟨_, _, route_of_select (f := .load) hw rfl, route_of_select (f := .load) (h.trans hw) rfl, rfl⟩
    · exact ⟨_, _, route_of_select (f := .store) hw rfl, route_of_select (f := .store) (h.trans hw) rfl, rfl⟩
    · exact ⟨_, _, route_of_select (f := .fence) hw rfl, route_of_select (f := .fence) (h.trans hw) rfl, rfl⟩
    · exact ⟨_, _, route_of_select (f := .jumpAndLinkRegister) hw rfl,
        route_of_select (f := .jumpAndLinkRegister) (h.trans hw) rfl, rfl⟩

/-! ## Unmatched keys -/

theorem fieldsUnder_registerRegister_illFormed (w : Word) :
    (fieldsUnder w .registerRegister).wellFormed = false ↔
      (funct3Of w, funct7Of w) ∉ [(0b000#3, 0b0000000#7), (0b000#3, 0b0100000#7), (0b100#3, 0b0000000#7)] := by
  rw [← Bool.not_eq_true, not_iff_not]
  simp [fieldsUnder, Fields.wellFormed, or_assoc]

theorem fieldsUnder_immediate_illFormed (w : Word) :
    (fieldsUnder w .immediate).wellFormed = false ↔
      funct3Of w ∈ [0b010#3, 0b011#3, 0b100#3, 0b101#3, 0b110#3, 0b111#3] := by
  rw [fieldsUnder, Fields.wellFormed]
  generalize funct3Of w = f3
  revert f3
  decide

theorem fieldsUnder_branch_illFormed (w : Word) :
    (fieldsUnder w .branch).wellFormed = false ↔ funct3Of w ∈ [0b010#3, 0b011#3] := by
  rw [fieldsUnder, Fields.wellFormed]
  generalize funct3Of w = f3
  revert f3
  decide

theorem step_of_fetches {s : State} {w : Word} (hs : Fetches s w) : step s = dispatch (route w) s := by
  obtain ⟨hrun, hfetch⟩ := hs
  rw [step_running hrun, cycle, hfetch]

/-- A running core that fetched a word whose key is unmatched takes the fatal stop with format and key. -/
theorem step_unmatched {s : State} {w : Word} {f : Format} (hs : Fetches s w) (hop : opcodeOf w = f.opcode)
    (hwf : (fieldsUnder w f).wellFormed = false) :
    ∃ t, step s = .next t ∧ FatalStop s t (.unmatchedOperation f (w &&& f.keyMask)) := by
  have hroute : route w = .unmatched f (w &&& f.keyMask) := route_eq_unmatched_iff.2 ⟨hop, hwf, rfl⟩
  exact ⟨_, by rw [step_of_fetches hs, hroute, dispatch], fatalStop_raise s _⟩

theorem exists_route_of_wellFormed {w : Word} {f : Format} (hop : opcodeOf w = f.opcode)
    (h : (fieldsUnder w f).wellFormed = true) : ∃ i, route w = .instr i := by
  rw [← select_isSome, Option.isSome_iff_exists] at h
  obtain ⟨i, hi⟩ := h
  exact ⟨i, route_of_select hop hi⟩

/-- Settles O7: the router's answer is unmatched where the fields are ill-formed, which three formats alone can be. -/
theorem unmatchedKeysStop : Obligations.UnmatchedKeysStop := by
  unfold Obligations.UnmatchedKeysStop
  refine ⟨fun s w hs hop hkey => ?_, fun s w hs hop hkey => ?_, fun s w hs hop hkey => ?_, fun w h => ?_, fun w h => ?_⟩
  · exact step_unmatched hs hop ((fieldsUnder_registerRegister_illFormed w).2 hkey)
  · exact step_unmatched hs hop ((fieldsUnder_immediate_illFormed w).2 hkey)
  · exact step_unmatched hs hop ((fieldsUnder_branch_illFormed w).2 hkey)
  · obtain ⟨f, k, h⟩ := h
    obtain ⟨hop, hwf, -⟩ := route_eq_unmatched_iff.1 h
    cases f with
    | registerRegister => exact .inl ⟨hop, (fieldsUnder_registerRegister_illFormed w).1 hwf⟩
    | immediate => exact .inr (.inl ⟨hop, (fieldsUnder_immediate_illFormed w).1 hwf⟩)
    | branch => exact .inr (.inr ⟨hop, (fieldsUnder_branch_illFormed w).1 hwf⟩)
    | _ => cases hwf
  · simp only [List.mem_cons, List.not_mem_nil, or_false] at h
    obtain h | h | h | h := h
    · exact exists_route_of_wellFormed (f := .loadUpperImmediate) h rfl
    · exact exists_route_of_wellFormed (f := .addUpperImmediateToPc) h rfl
    · exact exists_route_of_wellFormed (f := .jumpAndLink) h rfl
    · exact exists_route_of_wellFormed (f := .system) h rfl

/-! ## Offsets -/

/-- Doubling widens by one bit, so it keeps the sign and does not wrap. -/
theorem toInt_signExtend_append_zero {n : Nat} (hn : n < 32) (raw : BitVec n) :
    ((raw ++ 0#1).signExtend 32).toInt = 2 * raw.toInt := by
  rw [BitVec.toInt_signExtend_of_le hn, BitVec.toInt_append_zero]
  rfl

/-- Settles O10: by the branch offset as a sign-extension; every branch of the router carries the four slices. -/
theorem branchOffsetScaled : Obligations.BranchOffsetScaled := by
  unfold Obligations.BranchOffsetScaled
  refine ⟨fun raw => ?_, fun w hop i hi => ⟨rs1Of w, rs2Of w, ?_⟩⟩
  · have hval : (branchOffset raw).toInt = 2 * raw.toInt := by
      rw [branchOffset_eq, toInt_signExtend_append_zero (by decide)]
    have hlo : -2048 ≤ raw.toInt := raw.le_toInt
    have hhi : raw.toInt < 2048 := raw.toInt_lt
    exact ⟨rfl, branchOffset_eq raw, hval, by omega, by omega⟩
  · have hsel := select_of_route (f := .branch) hop hi
    rw [fieldsUnder, select] at hsel
    split_ifs at hsel
    all_goals
      cases hsel
      simp [rawB]

/-- Settles O11: likewise; the jump format has one operation. -/
theorem jumpOffsetScaled : Obligations.JumpOffsetScaled := by
  unfold Obligations.JumpOffsetScaled
  refine ⟨fun raw => ?_, fun w hop => ⟨rdOf w, route_of_select (f := .jumpAndLink) hop rfl⟩⟩
  have hval : (jumpOffset raw).toInt = 2 * raw.toInt := by
    rw [jumpOffset_eq, toInt_signExtend_append_zero (by decide)]
  have hlo : -524288 ≤ raw.toInt := raw.le_toInt
  have hhi : raw.toInt < 524288 := raw.toInt_lt
  exact ⟨rfl, jumpOffset_eq raw, hval, by omega, by omega⟩

/-! ## Written words -/

/-- Settles O1, by evaluation of the router. -/
theorem writtenWordsDecode : Obligations.WrittenWordsDecode := by
  unfold Obligations.WrittenWordsDecode
  decide

end Sys2Proof.Claims
end

section
/-! PROOF. The sign-extension unit (40_decode_dispatch.md R90), the cycle as the meaning of the instruction it fetched
(R96, R98), and what a cycle leaves of the latch and the error channel (R99, R100). -/

namespace Sys2Proof.Machine

/-! ## Sign extension -/

/-- The sign that the unit repeats is bit `n - 1` of its argument. -/
theorem msb_setWidth_eq_getLsbD {n : Nat} (hpos : 1 ≤ n) (v : Word) : (v.setWidth n).msb = v.getLsbD (n - 1) := by
  rw [BitVec.msb_setWidth, decide_eq_true (by omega), Bool.true_and]

theorem getLsbD_sext_of_ge {n i : Nat} (hpos : 1 ≤ n) (v : Word) (hi : n ≤ i) (hi32 : i < 32) :
    (sext n v).getLsbD i = v.getLsbD (n - 1) := by
  rw [sext, BitVec.getLsbD_signExtend, decide_eq_true hi32, Bool.true_and, if_neg (by omega),
    msb_setWidth_eq_getLsbD hpos]

theorem getLsbD_sext_of_lt {n i : Nat} (hle : n ≤ 32) (v : Word) (hi : i < n) :
    (sext n v).getLsbD i = v.getLsbD i := by
  rw [sext, BitVec.getLsbD_signExtend, decide_eq_true (by omega), Bool.true_and, if_pos hi,
    BitVec.getLsbD_setWidth, decide_eq_true hi, Bool.true_and]

/-- The low `n` bits as a number, raised by `2^32 - 2^n` where they stand for a negative one. -/
theorem toNat_sext {n : Nat} (hle : n ≤ 32) (v : Word) :
    (sext n v).toNat =
      if v.toNat % 2 ^ n < 2 ^ (n - 1) then v.toNat % 2 ^ n else v.toNat % 2 ^ n + 2 ^ 32 - 2 ^ n := by
  have hpow : 2 ^ n ≤ 2 ^ 32 := Nat.pow_le_pow_right (by decide) hle
  have hmod : v.toNat % 2 ^ n < 2 ^ n := Nat.mod_lt _ (Nat.two_pow_pos n)
  rw [sext, BitVec.toNat_signExtend, BitVec.toNat_setWidth_of_le hle, BitVec.msb_eq_decide, BitVec.toNat_setWidth]
  by_cases hneg : v.toNat % 2 ^ n < 2 ^ (n - 1)
  · rw [if_pos hneg, decide_eq_false (by omega)]; rfl
  · rw [if_neg hneg, decide_eq_true (by omega), if_pos rfl]; omega

end Sys2Proof.Machine

namespace Sys2Proof.Claims
open Sys2Proof.Machine

/-- Settles O9: the low bits are copied and bit `n - 1` is repeated; as a number, a set bit `n - 1` adds the repeated
ones. -/
theorem signExtensionUnit : Obligations.SignExtensionUnit := by
  unfold Obligations.SignExtensionUnit
  exact fun _ v hpos hle =>
    ⟨fun _ => getLsbD_sext_of_lt hle v, fun _ => getLsbD_sext_of_ge hpos v, toNat_sext hle v⟩

/-! ## How a cycle ends -/

theorem Runs.step_eq {s : State} {i : Instr} (h : Runs s i) : step s = exec i s := by
  obtain ⟨w, ⟨hrun, hfetch⟩, hroute⟩ := h
  exact step_instr hrun hfetch hroute

/-- What the cycle from `s` to `t` leaves on the latch and the error channel, one case for each way it can end
(40_decode_dispatch.md R99, R100). Output is left out, since a string syscall may print before it faults. -/
inductive CycleEnd (s t : State) : Prop where
  /-- A fatal condition: one record, the latch stopped with its cause, `pc` and the registers as they were. -/
  | fatal (f : Fatal) (pc : t.pc = s.pc) (regs : SameRegs s t) (run : t.run = .stopped f.cause)
      (errors : t.env.errors = s.env.errors ++ [.fatal f])
  /-- EBREAK, without a record. -/
  | breakpoint (runs : Runs s .ebreak) (run : t.run = .stopped .breakpoint) (errors : t.env.errors = s.env.errors)
  /-- A completed cycle without a record. -/
  | completed (run : t.run = .running) (errors : t.env.errors = s.env.errors)
  /-- A completed cycle that reported a syscall number it does not know. -/
  | reported (n : Word) (run : t.run = .running) (errors : t.env.errors = s.env.errors ++ [.unknownSyscall n])

/-- The end of a cycle that raises a condition, in an environment with as many records as before the cycle. -/
theorem cycleEnd_raise {s : State} {e : Env} (herrors : e.errors = s.env.errors) (f : Fatal) :
    CycleEnd s (raise f (s.setEnv e)) :=
  .fatal f rfl (fun _ => rfl) rfl (by rw [raise_env, Env.report_errors, State.setEnv_env, herrors])

/-- ECALL ends as the handler answers, and the handler itself makes no record (46_system.md R175). -/
theorem cycleEnd_ecall {s t : State} (hrun : s.run = .running) (h : execEcall s = .next t) : CycleEnd s t := by
  obtain ⟨ans, e, hsys, hans⟩ := execEcall_cases h
  obtain ⟨-, -, herrors, -⟩ := syscall_cases hsys
  obtain ⟨-, rfl⟩ | ⟨-, rfl⟩ | ⟨ad, -, rfl⟩ := hans
  · exact .completed hrun herrors
  · exact .reported _ hrun (by rw [commit_env, report_env, Env.report_errors, State.setEnv_env, herrors])
  · exact cycleEnd_raise herrors _

theorem cycleEnd_of_runs {i : Instr} {s t : State} (hi : Runs s i) (h : exec i s = .next t) : CycleEnd s t := by
  obtain ⟨y, -, rfl⟩ | ⟨rfl, rfl⟩ | ⟨f, w, -, -, -, rfl⟩ | ⟨-, hecall⟩ := exec_cases h
  · exact .completed ((commit_run s y).trans hi.running) (by rw [commit_env])
  · exact .breakpoint hi rfl rfl
  · exact cycleEnd_raise rfl _
  · exact cycleEnd_ecall hi.running hecall

theorem cycleEnd_of_step {s t : State} (h : step s = .next t) : CycleEnd s t := by
  obtain ⟨f, rfl⟩ | ⟨i, hi, ht⟩ := step_raises_or_runs h
  · exact cycleEnd_raise rfl f
  · exact cycleEnd_of_runs hi ht

/-! ## The statements -/

/-- Settles O38: only the fatal end of a cycle leaves such a latch, and a stopped core takes no step. -/
theorem fatalCyclesMutateNothing : Obligations.FatalCyclesMutateNothing := by
  unfold Obligations.FatalCyclesMutateNothing
  intro s t c h hrun hc
  have hretry : ∀ u, step t ≠ .next u := fun u hu => by simp [step_stopped hrun] at hu
  cases cycleEnd_of_step h with
  | fatal f hpc hregs hstop herrors =>
    have hcause : f.cause = c := Run.stopped.inj (hstop.symm.trans hrun)
    exact ⟨hpc, hregs, coreNeverWritesMemory s t h, ⟨f, hcause, herrors⟩, hretry⟩
  | breakpoint _ hstop _ => exact absurd (Run.stopped.inj (hrun.symm.trans hstop)) hc
  | completed hrunning _ | reported _ hrunning _ => cases hrun.symm.trans hrunning

/-- Settles O39: the flag is read off the latch at each of the four ends of a cycle; they differ in the record they add,
and a core that fetched EBREAK can end in no other way. -/
theorem continueFlagMeaning : Obligations.ContinueFlagMeaning := by
  unfold Obligations.ContinueFlagMeaning
  intro s t h
  have hebreak : Runs s .ebreak → continueFlag t = false := by
    intro hi
    cases (hi.step_eq.symm.trans h : exec .ebreak s = .next t)
    rfl
  cases cycleEnd_of_step h with
  | fatal f _ _ hrun herrors =>
    have hflag : continueFlag t = false := (continueFlag_eq_false_iff t).2 ⟨_, hrun⟩
    exact ⟨iff_of_true hflag (.inl ⟨f, herrors⟩), fun ⟨n, hn⟩ => by simp [herrors] at hn⟩
  | breakpoint hi _ herrors =>
    exact ⟨iff_of_true (hebreak hi) (.inr hi), fun ⟨n, hn⟩ => by simp [herrors] at hn⟩
  | completed hrun herrors | reported _ hrun herrors =>
    have hflag : continueFlag t = true := by simp [continueFlag, hrun]
    refine ⟨iff_of_false (by simp [hflag]) ?_, fun _ => hflag⟩
    rintro (⟨f, hf⟩ | hi)
    · simp [herrors] at hf
    · simp [hebreak hi] at hflag

/-- Settles O33: the fetch answers the word of the four bytes, little-endian. -/
theorem stepRunsDecodedInstruction : Obligations.StepRunsDecodedInstruction := by
  unfold Obligations.StepRunsDecodedInstruction
  intro s i hrun htop hmapped hroute
  exact step_instr hrun (fetch_of_inRange ((fetchSpan_iff s).2 ⟨htop, hmapped⟩)) hroute

end Sys2Proof.Claims
end

section
/-! PROOF. The instructions that write one register: what such a cycle leaves (10_state.md R22, R27; 40_decode_dispatch.md
R98), and the register-register ALU (41_reg_reg_alu.md R120 to R122). -/

namespace Sys2Proof.Claims
open Sys2Proof.Machine

/-! ## One register write -/

/-- The commit of one write, whatever the target: register 0 takes none, since it reads 0 always. -/
theorem wroteReg_commit (s : State) (rd : RegIdx) (v : Word) (target : Option Word) :
    WroteReg s (commit { write := some (rd, v), target := target } s) rd v :=
  ⟨RegFile.read_write_same s.x v, State.reg_zero _, fun _ => RegFile.read_write_other s.x v⟩

theorem sameRest_commit (s : State) (y : Yield) : SameRest s (commit y s) :=
  ⟨commit_run s y, sameMemory_of_env (by rw [commit_env]) (by rw [commit_env]), commit_env s y⟩

/-- An instruction that yields one register write completes with that write and the `pc` of its target, if it has one. -/
theorem exec_writes (i : Instr) (s : State) {rd : RegIdx} {v : Word} {target : Option Word}
    (h : Instr.yield i s = some { write := some (rd, v), target := target }) :
    ∃ t, exec i s = .next t ∧ WroteReg s t rd v ∧ t.pc = nextPc target s.pc ∧ SameRest s t :=
  ⟨_, exec_of_yield h, wroteReg_commit s rd v target, rfl, sameRest_commit s _⟩

/-! ## The register-register ALU -/

/-- The key of a register-register word is its opcode, `funct3` and `funct7` (30_encoding.md R69): where the key's own
select an operation, the word is that operation of its three register fields. -/
theorem route_of_registerRegister_key {w key : Word} {i : Instr} (h : w &&& 0xFE00707F#32 = key)
    (hop : opcodeOf key = 0x33#7)
    (hsel : select (.registerRegister (funct7Of key) (regField w 20) (regField w 15) (funct3Of key) (regField w 7)) =
      some i) :
    route w = .instr i := by
  have hopcode : opcodeOf w = opcodeOf key := extractLsb'_of_key rfl h
  have hf3 : funct3Of w = funct3Of key := extractLsb'_of_key rfl h
  have hf7 : funct7Of w = funct7Of key := extractLsb'_of_key rfl h
  refine route_of_select (f := .registerRegister) (hopcode.trans hop) ?_
  rw [fieldsUnder, hf3, hf7]
  exact hsel

/-- The difference of two words is that of their unsigned readings over the integers, modulo `2^XLEN`. -/
theorem ofInt_toNat_sub_toNat (a b : Word) : BitVec.ofInt 32 (a.toNat - b.toNat) = a - b := by
  rw [Int.sub_eq_add_neg, BitVec.ofInt_add, BitVec.ofInt_neg, BitVec.ofInt_natCast, BitVec.ofInt_natCast,
    BitVec.ofNat_toNat, BitVec.ofNat_toNat, BitVec.setWidth_eq, BitVec.setWidth_eq, BitVec.sub_eq_add_neg]

/-- Settles O12: ADD yields one write, of the sum of two words as `BitVec.add_def` defines it. -/
theorem addWritesSum : Obligations.AddWritesSum := by
  unfold Obligations.AddWritesSum
  refine ⟨fun w h => route_of_registerRegister_key h rfl rfl, fun rd rs1 rs2 s => ?_⟩
  rw [← BitVec.add_def]
  exact exec_writes (.add rd rs1 rs2) s rfl

/-- Settles O13: SUB yields one write, of the difference of two words. -/
theorem subWritesDifference : Obligations.SubWritesDifference := by
  unfold Obligations.SubWritesDifference
  refine ⟨fun w h => route_of_registerRegister_key h rfl rfl, fun rd rs1 rs2 s => ?_⟩
  rw [ofInt_toNat_sub_toNat]
  exact exec_writes (.sub rd rs1 rs2) s rfl

/-- Settles O14: XOR yields one write, of a word whose bits are those of `BitVec.getLsbD_xor`. -/
theorem xorWritesExclusiveOr : Obligations.XorWritesExclusiveOr := by
  unfold Obligations.XorWritesExclusiveOr
  refine ⟨fun w h => route_of_registerRegister_key h rfl rfl, fun rd rs1 rs2 s => ?_⟩
  obtain ⟨t, hexec, hwrote, hpc, hrest⟩ := exec_writes (.xor rd rs1 rs2) s rfl
  exact ⟨t, hexec, ⟨_, fun _ _ => BitVec.getLsbD_xor, hwrote⟩, hpc, hrest⟩

end Sys2Proof.Claims
end

section
/-! PROOF. The immediate ALU (42_imm_alu.md R130, R131). -/

namespace Sys2Proof.Claims
open Sys2Proof.Machine

/-! ## Decoding -/

/-- The key of an immediate word is its opcode and `funct3` (30_encoding.md R69): where the key's own select an
operation, the word is that operation of its two register fields and `w[31:20]`. -/
theorem route_of_immediate_key {w key : Word} {i : Instr} (h : w &&& 0x0000707F#32 = key)
    (hop : opcodeOf key = 0x13#7)
    (hsel : select (.immediate (w.extractLsb' 20 12) (regField w 15) (funct3Of key) (regField w 7)) = some i) :
    route w = .instr i := by
  have hopcode : opcodeOf w = opcodeOf key := extractLsb'_of_key rfl h
  have hf3 : funct3Of w = funct3Of key := extractLsb'_of_key rfl h
  refine route_of_select (f := .immediate) (hopcode.trans hop) ?_
  rw [fieldsUnder, hf3]
  exact hsel

/-- The shift amount that the router cuts from the immediate is `w[24:20]` (30_encoding.md R71). -/
theorem extractLsb'_immediate_shamt (w : Word) : (w.extractLsb' 20 12).extractLsb' 0 5 = w.extractLsb' 20 5 := by
  refine BitVec.eq_of_getLsbD_eq fun i hi => ?_
  have hi12 : i < 12 := by omega
  simp [hi, hi12]

/-! ## Values -/

/-- The sum of a word and the I immediate is that of its unsigned and the immediate's signed reading over the integers,
modulo `2^XLEN`. -/
theorem ofInt_toNat_add_toInt (a : Word) (imm : BitVec 12) : BitVec.ofInt 32 (a.toNat + imm.toInt) = a + immI imm := by
  rw [BitVec.ofInt_add, BitVec.ofInt_natCast, BitVec.ofNat_toNat, BitVec.setWidth_eq, immI, sext, BitVec.setWidth_eq,
    BitVec.signExtend]

theorem getLsbD_shiftLeft_of_lt (v : Word) (shamt : BitVec 5) {i : Nat} (hi : i < 32) :
    (shiftLeft v shamt).getLsbD i = (decide (shamt.toNat ≤ i) && v.getLsbD (i - shamt.toNat)) := by
  rw [shiftLeft, BitVec.getLsbD_shiftLeft, decide_eq_true hi, Bool.true_and, ← decide_not]
  simp only [Nat.not_lt]

theorem toNat_shiftLeft (v : Word) (shamt : BitVec 5) :
    (shiftLeft v shamt).toNat = v.toNat * 2 ^ shamt.toNat % 2 ^ 32 := by
  rw [shiftLeft, BitVec.toNat_shiftLeft, Nat.shiftLeft_eq]

/-! ## The statements -/

/-- Settles O15: ADDI yields one write, of the sum of a word and the sign-extended immediate. -/
theorem addiWritesSum : Obligations.AddiWritesSum := by
  unfold Obligations.AddiWritesSum
  refine ⟨fun w h => route_of_immediate_key h rfl rfl, fun rd rs1 imm s => ?_⟩
  rw [ofInt_toNat_add_toInt]
  exact exec_writes (.addi rd rs1 imm) s rfl

/-- Settles O16: SLLI yields one write, of the shifted word; its immediate's upper bits `w[31:25]` are not read. -/
theorem slliShiftsLeft : Obligations.SlliShiftsLeft := by
  unfold Obligations.SlliShiftsLeft
  refine ⟨fun w h => ?_, fun rd rs1 shamt s => ?_⟩
  · rw [← extractLsb'_immediate_shamt]
    exact route_of_immediate_key h rfl rfl
  · obtain ⟨t, hexec, hwrote, hpc, hrest⟩ := exec_writes (.slli rd rs1 shamt) s rfl
    exact ⟨t, hexec, ⟨_, fun _ => getLsbD_shiftLeft_of_lt _ shamt, toNat_shiftLeft _ shamt, hwrote⟩, hpc, hrest⟩

end Sys2Proof.Claims
end

section
/-! PROOF. The branch unit (43_branch.md R140 to R147): the key of a branch word, what a taken and a not taken branch
leave, and the six conditions. -/

namespace Sys2Proof.Claims
open Sys2Proof.Machine

/-! ## Decoding -/

/-- The key of a branch word is its opcode and `funct3` (30_encoding.md R69): where the key's own select an operation, the
word is that operation of its two register fields and its immediate slices. -/
theorem route_of_branch_key {w key : Word} {i : Instr} (h : w &&& 0x0000707F#32 = key) (hop : opcodeOf key = 0x63#7)
    (hsel : select (.branch (w.extractLsb' 31 1) (w.extractLsb' 25 6) (regField w 20) (regField w 15) (funct3Of key)
      (w.extractLsb' 8 4) (w.extractLsb' 7 1)) = some i) :
    route w = .instr i := by
  have hopcode : opcodeOf w = opcodeOf key := extractLsb'_of_key rfl h
  have hf3 : funct3Of w = funct3Of key := extractLsb'_of_key rfl h
  refine route_of_select (f := .branch) (hopcode.trans hop) ?_
  rw [fieldsUnder, hf3]
  exact hsel

/-! ## One branch (43_branch.md R140) -/

/-- A taken branch yields its target, a branch not taken yields nothing; `hcond` reads the unit's condition as the
statements write it. -/
theorem branched_commit (s : State) {taken : Bool} {P : Prop} (hcond : taken = true ↔ P) (raw : BitVec 12) :
    Branched s (commit { target := if taken then some (s.pc + branchOffset raw) else none } s) P raw := by
  refine ⟨fun hP => ?_, fun hP => ?_, fun _ => rfl, sameRest_commit s _⟩
  · rw [commit_pc, if_pos (hcond.2 hP), nextPc_some, branchOffset_eq]
  · rw [commit_pc, if_neg (mt hcond.1 hP), nextPc_none]

/-- An instruction whose yield is that of a branch completes as one. -/
theorem exec_branches (i : Instr) (s : State) {taken : Bool} {P : Prop} {raw : BitVec 12} (hcond : taken = true ↔ P)
    (h : Instr.yield i s = some { target := if taken then some (s.pc + branchOffset raw) else none }) :
    ∃ t, exec i s = .next t ∧ Branched s t P raw :=
  ⟨_, exec_of_yield h, branched_commit s hcond raw⟩

/-! ## The statements -/

/-- Settles O17: BEQ and BNE yield as branches, on the equality of two bit patterns and on its negation. -/
theorem equalityBranches : Obligations.EqualityBranches := by
  unfold Obligations.EqualityBranches
  refine ⟨fun w h => route_of_branch_key h rfl rfl, fun w h => route_of_branch_key h rfl rfl, fun rs1 rs2 raw s => ?_⟩
  exact ⟨exec_branches (.beq rs1 rs2 raw) s (condEq_iff ..) rfl, exec_branches (.bne rs1 rs2 raw) s (condNe_iff ..) rfl⟩

/-- Settles O18: BLT and BGE yield as branches, on the order of the two's-complement readings. -/
theorem signedBranches : Obligations.SignedBranches := by
  unfold Obligations.SignedBranches
  refine ⟨fun w h => route_of_branch_key h rfl rfl, fun w h => route_of_branch_key h rfl rfl, fun rs1 rs2 raw s => ?_⟩
  exact ⟨exec_branches (.blt rs1 rs2 raw) s (condLt_iff ..) rfl, exec_branches (.bge rs1 rs2 raw) s (condGe_iff ..) rfl⟩

/-- Settles O19: BLTU and BGEU yield as branches, on the order of the unsigned readings. -/
theorem unsignedBranches : Obligations.UnsignedBranches := by
  unfold Obligations.UnsignedBranches
  refine ⟨fun w h => route_of_branch_key h rfl rfl, fun w h => route_of_branch_key h rfl rfl, fun rs1 rs2 raw s => ?_⟩
  exact ⟨exec_branches (.bltu rs1 rs2 raw) s (condLtu_iff ..) rfl,
    exec_branches (.bgeu rs1 rs2 raw) s (condGeu_iff ..) rfl⟩

end Sys2Proof.Claims
end

section
/-! PROOF. The jump-and-link unit (44_jump.md R155). -/

namespace Sys2Proof.Claims
open Sys2Proof.Machine

/-- The key of a jump word is its opcode alone (30_encoding.md R69): it is JAL of its destination field and its immediate
slices. -/
theorem route_of_jump_key {w : Word} (h : w &&& 0x0000007F#32 = 0x0000006F#32) :
    route w = .instr (.jal (regField w 7) (rawJ w)) := by
  have hopcode : opcodeOf w = opcodeOf 0x0000006F#32 := extractLsb'_of_key rfl h
  exact route_of_select (f := .jumpAndLink) hopcode rfl

/-- Settles O20: JAL yields one write, of the link, together with a target; both are read off the state before it. -/
theorem jalLinksAndJumps : Obligations.JalLinksAndJumps := by
  unfold Obligations.JalLinksAndJumps
  refine ⟨fun w h => route_of_jump_key h, fun rd raw s => ?_⟩
  rw [← jumpOffset_eq]
  exact exec_writes (.jal rd raw) s rfl

end Sys2Proof.Claims
end

section
/-! PROOF. The upper immediates (45_upper_imm.md R165, R166): the key of a U word and the U immediate as a value. -/

namespace Sys2Proof.Claims
open Sys2Proof.Machine

/-! ## Decoding -/

/-- Where the opcode is the whole key (30_encoding.md R69), a word of a format's opcode is the instruction that its fields
under that format select. -/
theorem route_of_opcode_key {w key : Word} {f : Format} {i : Instr} (h : w &&& 0x0000007F#32 = key)
    (hop : opcodeOf key = f.opcode) (hsel : select (fieldsUnder w f) = some i) : route w = .instr i := by
  have hopcode : opcodeOf w = opcodeOf key := extractLsb'_of_key rfl h
  exact route_of_select (hopcode.trans hop) hsel

/-! ## Values -/

/-- Masking the low bits away keeps the high slice in its place. -/
theorem and_highOnes {m k : Nat} (x : BitVec (m + k)) : x &&& (BitVec.allOnes m ++ 0#k) = x.extractLsb' k m ++ 0#k := by
  conv_lhs => rw [← BitVec.extractLsb'_append_extractLsb' (x := x)]
  rw [BitVec.and_append, BitVec.and_allOnes, BitVec.and_zero]

/-- The U immediate of a word is the word with its low 12 bits cleared. -/
theorem immU_extractLsb' (w : Word) : immU (w.extractLsb' 12 20) = w &&& 0xFFFFF000#32 :=
  (and_highOnes (m := 20) (k := 12) w).symm

theorem toNat_immU (imm20 : BitVec 20) : (immU imm20).toNat = imm20.toNat * 4096 := by
  rw [immU, BitVec.toNat_append, BitVec.toNat_ofNat, Nat.zero_mod, Nat.or_zero, Nat.shiftLeft_eq]

/-! ## The statements -/

/-- Settles O21: LUI yields one write, of the U immediate. -/
theorem luiWritesUpperImmediate : Obligations.LuiWritesUpperImmediate := by
  unfold Obligations.LuiWritesUpperImmediate
  refine ⟨fun w h => route_of_opcode_key (f := .loadUpperImmediate) h rfl rfl, fun w rd s => ?_⟩
  rw [← immU_extractLsb']
  exact exec_writes (.lui rd (w.extractLsb' 12 20)) s rfl

/-- Settles O22: AUIPC yields one write, of the sum of the U immediate and the `pc` of the state before it. -/
theorem auipcAddsToPc : Obligations.AuipcAddsToPc := by
  unfold Obligations.AuipcAddsToPc
  refine ⟨fun w h => route_of_opcode_key (f := .addUpperImmediateToPc) h rfl rfl, fun rd imm20 s => ?_⟩
  rw [← toNat_immU, ← BitVec.add_def]
  exact exec_writes (.auipc rd imm20) s rfl

end Sys2Proof.Claims
end

section
/-! PROOF. The decimal representation of a number (46_system.md R179, D21): the digits that the print-integer service
writes, characterised by reading them back. -/

namespace Sys2Proof.Machine

/-- `digits` are the minimal decimal representation of `n`: codes of digits, no leading zero but for zero itself, and
`n` when they are read back. -/
structure IsDecimal (digits : List Byte) (n : Nat) : Prop where
  nonempty : digits ≠ []
  codes : ∀ d ∈ digits, 48 ≤ d.toNat ∧ d.toNat ≤ 57
  minimal : digits.head? = some 48#8 → digits = [48#8]
  value : digits.foldl (fun n d => 10 * n + (d.toNat - 48)) 0 = n

theorem toNat_digitCode {d : Nat} (h : d < 10) : (digitCode d).toNat = 48 + d := by
  rw [digitCode, BitVec.toNat_ofNat, Nat.mod_eq_of_lt (by omega)]

theorem isDecimal_digit {d : Nat} (h : d < 10) : IsDecimal [digitCode d] d where
  nonempty := List.cons_ne_nil _ _
  codes c hc := by rw [List.mem_singleton.1 hc, toNat_digitCode h]; omega
  minimal h0 := congrArg (fun c => [c]) (Option.some.inj h0)
  value := by rw [List.foldl_cons, List.foldl_nil, toNat_digitCode h]; omega

/-- One more digit behind the representation of a number other than zero. -/
theorem IsDecimal.snoc {digits : List Byte} {q d : Nat} (h : IsDecimal digits q) (hq : q ≠ 0) (hd : d < 10) :
    IsDecimal (digits ++ [digitCode d]) (10 * q + d) where
  nonempty := List.append_ne_nil_of_left_ne_nil h.nonempty _
  codes c hc := by
    obtain hc | hc := List.mem_append.1 hc
    · exact h.codes c hc
    · exact (isDecimal_digit hd).codes c hc
  minimal h0 := by
    rw [List.head?_append_of_ne_nil _ h.nonempty] at h0
    have hzero : 0 = q := by rw [← h.value, h.minimal h0]; rfl
    exact absurd hzero.symm hq
  value := by
    rw [List.foldl_append, h.value, List.foldl_cons, List.foldl_nil, toNat_digitCode hd, Nat.add_sub_cancel_left]

/-- With fuel for all its digits, a number is written in its minimal representation. -/
theorem isDecimal_decimalDigits {fuel n : Nat} (h : n < 10 ^ (fuel + 1)) : IsDecimal (decimalDigits fuel n) n := by
  induction fuel generalizing n with
  | zero =>
    have hdigit : n < 10 := h
    rw [decimalDigits, Nat.mod_eq_of_lt hdigit]
    exact isDecimal_digit hdigit
  | succ fuel ih =>
    rw [decimalDigits]
    split
    · exact isDecimal_digit ‹n < 10›
    · have hfront : IsDecimal (decimalDigits fuel (n / 10)) (n / 10) := ih (by omega)
      have hall := hfront.snoc (d := n % 10) (by omega) (by omega)
      rwa [Nat.div_add_mod] at hall

theorem decimalText_eq (v : Word) :
    decimalText v = (if v.toInt < 0 then [45#8] else []) ++ decimalDigits 9 v.toInt.natAbs := by
  rw [decimalText]
  split <;> rfl

/-- The absolute value of a word has at most ten decimal digits. -/
theorem natAbs_toInt_lt (v : Word) : v.toInt.natAbs < 10 ^ 10 := by
  have hlow := BitVec.le_toInt v
  have hhigh := BitVec.toInt_lt (x := v)
  omega

end Sys2Proof.Machine
end

section
/-! PROOF. The system unit (46_system.md R175 to R185): the one bit that tells ECALL from EBREAK, the handler's answer
to each syscall number, and what ECALL makes of it. -/

namespace Sys2Proof

/-! ## The one-bit rule -/

theorem extractLsb'_one (w : Word) (i : Nat) : w.extractLsb' i 1 = BitVec.ofBool (w.getLsbD i) := by
  ext j hj
  obtain rfl : j = 0 := by omega
  simp

/-- The one-bit rule of 46_system.md R177. -/
theorem route_system {w : Word} (h : opcodeOf w = 0x73#7) :
    route w = .instr (if w.getLsbD 20 then .ebreak else .ecall) := by
  refine route_of_select (f := .system) h ?_
  rw [fieldsUnder, select, systemBit_eq, extractLsb'_one]
  cases w.getLsbD 20 <;> rfl

end Sys2Proof

namespace Sys2Proof.Machine

/-! ## The handler's answers -/

theorem syscall_printInt (a : Word) (e : Env) :
    syscall Params.sysPrintInt a e = .answered (.ok none) (e.print (decimalText a)) := if_pos rfl

theorem syscall_printFloat (a : Word) (e : Env) :
    syscall Params.sysPrintFloat a e = .answered (.ok none) (e.print (Config.freeText e.draws)).drew := by
  have hint : Params.sysPrintFloat ≠ Params.sysPrintInt := by decide
  rw [syscall, if_neg hint, if_pos rfl]

theorem syscall_printChar (a : Word) (e : Env) :
    syscall Params.sysPrintChar a e = .answered (.ok none) (e.print [a.setWidth 8]) := by
  have hint : Params.sysPrintChar ≠ Params.sysPrintInt := by decide
  have hfloat : Params.sysPrintChar ≠ Params.sysPrintFloat := by decide
  have hstring : Params.sysPrintChar ≠ Params.sysPrintString := by decide
  rw [syscall, if_neg hint, if_neg hfloat, if_neg hstring, if_pos rfl]

theorem syscall_printString_outOfRange {a ad : Word} {e : Env} {text : List Byte}
    (h : scanString e.regions e.mem addressSpace a = .outOfRange text ad) :
    syscall Params.sysPrintString a e =
      .answered (.memFault ad) (e.print (text.take (Config.freeCount e.draws))).drew := by
  have hint : Params.sysPrintString ≠ Params.sysPrintInt := by decide
  have hfloat : Params.sysPrintString ≠ Params.sysPrintFloat := by decide
  rw [syscall, if_neg hint, if_neg hfloat, if_pos rfl, h]

theorem syscall_of_unsupported {n : Word} (h : n ∉ supportedSyscalls) (a : Word) (e : Env) :
    syscall n a e = .answered .unknown e := by
  simp only [supportedSyscalls, List.mem_cons, List.not_mem_nil, or_false, not_or] at h
  obtain ⟨hint, hfloat, hstring, hchar⟩ := h
  rw [syscall, if_neg hint, if_neg hfloat, if_neg hstring, if_neg hchar]

/-! ## A scan that meets an unreadable address -/

section Scan
variable {rs : List Region} {m : Memory} {a : Word} {text : List Byte}

theorem scanString_of_unreadable (hr : inRegions rs a.toNat = false) (fuel : Nat) :
    scanString rs m (fuel + 1) a = .outOfRange [] a := by
  rw [scanString, memReadByte_outOfRange hr]

theorem foldr_scanCons_outOfRange (text t : List Byte) (ad : Word) :
    text.foldr Scan.cons (.outOfRange t ad) = .outOfRange (text ++ t) ad := by
  induction text with
  | nil => rfl
  | cons b text ih => rw [List.foldr_cons, ih]; rfl

/-- The handler's scan reaches the address after every text shorter than the address space. -/
theorem scanString_textAt_outOfRange (hlen : text.length < addressSpace) (h : TextAt rs m a text)
    (hr : inRegions rs (a + BitVec.ofNat 32 text.length).toNat = false) :
    scanString rs m addressSpace a = .outOfRange text (a + BitVec.ofNat 32 text.length) := by
  obtain ⟨fuel, hfuel⟩ := Nat.exists_eq_add_of_lt hlen
  rw [hfuel, Nat.add_assoc, scanString_of_textAt _ h, scanString_of_unreadable hr, foldr_scanCons_outOfRange,
    List.append_nil]

end Scan

/-! ## What ECALL makes of an answer -/

/-- ECALL with the number and the operand read off `a0` and `a1` (46_system.md R175). -/
theorem exec_ecall {s : State} {n : Word} {ans : Answer} {e : Env} (hnum : s.reg 10 = n)
    (h : syscall n (s.reg 11) s.env = .answered ans e) :
    exec .ecall s = afterSyscall n (.answered ans e) s := by
  subst hnum
  exact congrArg (afterSyscall (s.reg 10) · s) h

/-! ## The output channel -/

theorem execEcall_output {s t : State} (h : execEcall s = .next t) : ∃ text, t.env.output = s.env.output ++ text := by
  obtain ⟨ans, e, hsys, hans⟩ := execEcall_cases h
  obtain ⟨-, -, -, hout, -⟩ := syscall_cases hsys
  obtain ⟨-, rfl⟩ | ⟨-, rfl⟩ | ⟨ad, -, rfl⟩ := hans <;> exact hout

theorem exec_output_of_ne_ecall {i : Instr} {s t : State} (hi : i ≠ .ecall) (h : exec i s = .next t) :
    t.env.output = s.env.output := by
  obtain ⟨y, -, rfl⟩ | ⟨-, rfl⟩ | ⟨f, w, -, -, -, rfl⟩ | ⟨hecall, -⟩ := exec_cases h
  · rw [commit_env]
  · rfl
  · rfl
  · exact absurd hecall hi

end Sys2Proof.Machine

namespace Sys2Proof.Claims
open Sys2Proof.Machine

/-- A service that prints, at its number in `a0`, ends as a successful ECALL. -/
theorem ecall_prints {s : State} {n : Word} {e : Env} {text : List Byte} (hnum : s.reg 10 = n)
    (h : syscall n (s.reg 11) s.env = .answered (.ok none) e) (hout : e.output = s.env.output ++ text) :
    ∃ t, exec .ecall s = .next t ∧ Printed s t text ∧ t.env = e := by
  subst hnum
  exact ecall_printed h hout

/-! ## The statements -/

/-- Settles O6: the rule for every word, and so for the four words. -/
theorem systemOneBitRule : Obligations.SystemOneBitRule := by
  unfold Obligations.SystemOneBitRule
  exact ⟨fun w h => route_system h, route_system rfl, route_system rfl, route_system rfl, route_system rfl⟩

/-- Settles O23: the text is the sign and the decimal digits of the absolute value, for which the handler has fuel. -/
theorem ecallPrintsInteger : Obligations.EcallPrintsInteger := by
  unfold Obligations.EcallPrintsInteger
  intro s hnum
  obtain ⟨t, hexec, hprinted, henv⟩ := ecall_prints hnum (syscall_printInt _ _) rfl
  rw [decimalText_eq] at hprinted
  obtain ⟨hnonempty, hcodes, hminimal, hvalue⟩ := isDecimal_decimalDigits (natAbs_toInt_lt (s.reg 11))
  exact ⟨t, _, _, hexec, hprinted, by rw [henv, Env.print_draws], rfl, hnonempty, hcodes, hminimal, hvalue⟩

/-- Settles O54: the scan collects the text across the top of the address space and ends at the unreadable address; the
handler prints as much of the text as the free count says. -/
theorem stringScanFaultsPastTop : Obligations.StringScanFaultsPastTop := by
  unfold Obligations.StringScanFaultsPastTop
  intro s text hnum hlen htext hunmapped
  simp only [byteAt, mapped_iff, ← toNat_add_offset] at htext hunmapped
  have hscan := scanString_textAt_outOfRange hlen htext (Bool.eq_false_iff.2 hunmapped)
  exact ⟨_, _, exec_ecall hnum (syscall_printString_outOfRange hscan), rfl, fun _ => rfl,
    sameMemory_of_env rfl rfl, rfl, rfl, ⟨_, List.take_append_drop _ _⟩, rfl⟩

/-- Settles O25: below the top no address wraps, so the fault is that of O54, and the NUL ends the same scan. -/
theorem ecallPrintsString : Obligations.EcallPrintsString := by
  unfold Obligations.EcallPrintsString
  intro s text hnum htop htext
  have hlen : text.length < 2 ^ 32 := by omega
  have hwrap : ∀ k, k ≤ text.length → ((s.reg 11).toNat + k) % 2 ^ 32 = (s.reg 11).toNat + k :=
    fun k hk => Nat.mod_eq_of_lt (by omega)
  have htext' : ∀ (k : Nat) (b : Byte), text[k]? = some b → Mapped s (((s.reg 11).toNat + k) % 2 ^ 32) ∧
      byteAt s (((s.reg 11).toNat + k) % 2 ^ 32) = b ∧ b ≠ 0#8 := by
    intro k b hk
    rw [hwrap k (List.getElem?_eq_some_iff.1 hk).1.le]
    exact htext k b hk
  rw [← hwrap _ le_rfl]
  refine ⟨fun hmapped hnul => ?_, fun hunmapped => stringScanFaultsPastTop s text hnum hlen htext' hunmapped⟩
  simp only [byteAt, mapped_iff, ← toNat_add_offset] at htext' hmapped hnul
  have hscan := scanString_textAt_nul hlen htext' hmapped hnul
  obtain ⟨t, hexec, hprinted, henv⟩ := ecall_prints hnum (syscall_printString_nul hscan) rfl
  exact ⟨t, hexec, hprinted, by rw [henv, Env.print_draws]⟩

/-- Settles O28: the answer to an unsupported number leaves the environment as it was. -/
theorem ecallReportsUnknownNumber : Obligations.EcallReportsUnknownNumber := by
  unfold Obligations.EcallReportsUnknownNumber
  intro s hnum
  refine ⟨_, exec_ecall rfl (syscall_of_unsupported hnum _ _), rfl, fun _ => rfl, rfl,
    sameMemory_of_env rfl rfl, rfl, rfl, rfl, fun hrun => ?_⟩
  rw [continueFlag, commit_run, report_run, State.setEnv_run, hrun]
  rfl

/-- Settles O29: ECALL commits no register write, and a memory fault commits nothing. -/
theorem ecallPreservesRegisters : Obligations.EcallPreservesRegisters := by
  unfold Obligations.EcallPreservesRegisters
  intro s t h
  have hmem := exec_sameMemory h
  obtain ⟨ans, e, -, ⟨-, rfl⟩ | ⟨-, rfl⟩ | ⟨ad, -, rfl⟩⟩ := execEcall_cases h
  · exact ⟨fun _ => rfl, hmem, .inl ⟨rfl, rfl⟩⟩
  · exact ⟨fun _ => rfl, hmem, .inl ⟨rfl, rfl⟩⟩
  · exact ⟨fun _ => rfl, hmem, .inr ⟨rfl, rfl⟩⟩

/-- Settles O30: the key's bit 20 is set, and a core stopped by EBREAK takes no step. -/
theorem ebreakStops : Obligations.EbreakStops := by
  unfold Obligations.EbreakStops
  refine ⟨fun w h => ?_,
    fun s => ⟨_, rfl, rfl, fun _ => rfl, sameMemory_of_env rfl rfl, rfl, rfl, rfl, fun u hu => ?_⟩⟩
  · have hop : opcodeOf w = 0x73#7 := extractLsb'_of_key rfl h
    have hslice : w.extractLsb' 20 1 = BitVec.ofBool true := extractLsb'_of_key rfl h
    have hbit : w.getLsbD 20 = true := BitVec.ofBool_eq_iff_eq.1 ((extractLsb'_one w 20).symm.trans hslice)
    rw [route_system hop, if_pos hbit]
  · rw [step_stopped rfl] at hu
    cases hu

/-- Settles O44: a raised condition and every instruction but ECALL print nothing, and ECALL appends. -/
theorem outputOnlyByEcall : Obligations.OutputOnlyByEcall := by
  unfold Obligations.OutputOnlyByEcall
  intro s t h
  obtain ⟨f, rfl⟩ | ⟨i, hi, ht⟩ := step_raises_or_runs h
  · exact ⟨⟨[], (List.append_nil _).symm⟩, fun hne => absurd rfl hne⟩
  · by_cases hecall : i = .ecall
    · subst hecall
      exact ⟨execEcall_output ht, fun _ => hi⟩
    · have hsame := exec_output_of_ne_ecall hecall ht
      exact ⟨⟨[], by rw [hsame, List.append_nil]⟩, fun hne => absurd hsame hne⟩

/-- Settles O24: the text is the free value at the draw counter. -/
theorem ecallPrintsSomeFloat : Obligations.EcallPrintsSomeFloat := by
  unfold Obligations.EcallPrintsSomeFloat
  intro s hnum
  obtain ⟨t, hexec, hprinted, -⟩ := ecall_prints hnum (syscall_printFloat _ _) rfl
  exact ⟨t, _, hexec, hprinted⟩

/-- Settles O27: the character is `a1` cut to eight bits. -/
theorem ecallPrintsCharacter : Obligations.EcallPrintsCharacter := by
  unfold Obligations.EcallPrintsCharacter
  intro s hnum
  obtain ⟨t, hexec, hprinted, henv⟩ := ecall_prints hnum (syscall_printChar _ _) rfl
  exact ⟨t, _, hexec, hprinted, by rw [henv, Env.print_draws], BitVec.toNat_setWidth 8 _⟩

end Sys2Proof.Claims
end

section
/-! PROOF. The records on the error channel (60_exceptions.md R205 to R211): each is justified by the cycle that made it,
at most one is made in a cycle, and so every step keeps the invariant of Sys2Proof/Safety.lean. -/

namespace Sys2Proof

/-! ## An unmatched key as a word (R207) -/

theorem opcodeOf_and_keyMask (w : Word) (f : Format) : opcodeOf (w &&& f.keyMask) = opcodeOf w := by
  rw [opcodeOf, BitVec.extractLsb'_and, opcode_in_keyMask, BitVec.and_allOnes, opcodeOf]

/-- Under one format the key alone decides whether there is an operation. -/
theorem wellFormed_congr_of_key {w v : Word} {f : Format} (h : w &&& f.keyMask = v &&& f.keyMask) :
    (fieldsUnder w f).wellFormed = (fieldsUnder v f).wellFormed := by
  rw [← select_isSome, ← select_isSome, ← Option.isSome_map (f := Instr.mnemonic), mnemonic_congr_of_key h,
    Option.isSome_map]

/-- The key that a diagnostic carries is itself a word with that unmatched key. -/
theorem route_key_of_unmatched {w k : Word} {f : Format} (h : route w = .unmatched f k) :
    route k = .unmatched f k := by
  obtain ⟨hop, hwf, rfl⟩ := route_eq_unmatched_iff.1 h
  have hkey : w &&& f.keyMask &&& f.keyMask = w &&& f.keyMask := by rw [BitVec.and_assoc, BitVec.and_self]
  exact route_eq_unmatched_iff.2
    ⟨(opcodeOf_and_keyMask w f).trans hop, (wellFormed_congr_of_key hkey).trans hwf, hkey⟩

end Sys2Proof

namespace Sys2Proof.Machine

/-! ## Justified records -/

theorem spanInRange_four_of_one {rs : List Region} {a : Nat} (h : spanInRange rs a 1 = false) :
    spanInRange rs a 4 = false := by
  rw [Bool.eq_false_iff, ne_eq, spanInRange_iff] at h ⊢
  rintro ⟨htop, hin⟩
  exact h ⟨by omega, fun k hk => hin k (by omega)⟩

theorem justified_memoryFault {rs : List Region} {a : Word} (h : spanInRange rs a.toNat 4 = false) :
    (Diagnostic.fatal (.memoryFault a)).justified rs = true := by
  rw [Diagnostic.justified, h, Bool.not_false]

theorem justified_unknownSyscall_iff {rs : List Region} {n : Word} :
    (Diagnostic.unknownSyscall n).justified rs = true ↔ n ∉ supportedSyscalls := by
  simp [Diagnostic.justified]

/-- The record that a fatal stop adds to the channel is its own. -/
theorem record_of_raise {s : State} {f : Fatal} {d : Diagnostic}
    (h : (raise f s).env.errors = s.env.errors ++ [d]) : d = .fatal f :=
  (List.singleton_inj.1 (List.append_cancel_left h)).symm

theorem not_mem_supportedSyscalls {n a : Word} {e e' : Env} (h : syscall n a e = .answered .unknown e') :
    n ∉ supportedSyscalls := by
  simpa [supportedSyscalls] using syscall_unknown h

/-- The records of ECALL: the number in `a0` where the handler does not know it, and the address at which a string scan
faulted. -/
theorem record_of_execEcall {s t : State} {d : Diagnostic} (h : execEcall s = .next t)
    (hd : t.env.errors = s.env.errors ++ [d]) :
    (d = .unknownSyscall (s.reg Params.regA0) ∧ s.reg Params.regA0 ∉ supportedSyscalls) ∨
      ∃ ad, d = .fatal (.memoryFault ad) ∧ spanInRange s.env.regions ad.toNat 1 = false := by
  obtain ⟨ans, e, hsys, hans⟩ := execEcall_cases h
  obtain ⟨-, -, herrors, -, hscan⟩ := syscall_cases hsys
  obtain ⟨-, rfl⟩ | ⟨rfl, rfl⟩ | ⟨ad, rfl, rfl⟩ := hans
  · simp [herrors] at hd
  · obtain rfl : .unknownSyscall (s.reg Params.regA0) = d := by simpa [herrors] using hd
    exact .inl ⟨rfl, not_mem_supportedSyscalls hsys⟩
  · obtain rfl : .fatal (.memoryFault ad) = d := by simpa [herrors] using hd
    obtain ⟨text, hfault⟩ : ∃ text, scanString s.env.regions s.env.mem addressSpace (s.reg Params.regA1) =
        .outOfRange text ad := by simpa using hscan
    exact .inr ⟨ad, rfl, scanString_outOfRange hfault⟩

theorem justified_of_execEcall {s t : State} {d : Diagnostic} (h : execEcall s = .next t)
    (hd : t.env.errors = s.env.errors ++ [d]) : d.justified s.env.regions = true := by
  obtain ⟨rfl, hnum⟩ | ⟨ad, rfl, hspan⟩ := record_of_execEcall h hd
  · exact justified_unknownSyscall_iff.2 hnum
  · exact justified_memoryFault (spanInRange_four_of_one hspan)

theorem justified_of_exec {i : Instr} {s t : State} {d : Diagnostic} (h : exec i s = .next t)
    (hd : t.env.errors = s.env.errors ++ [d]) : d.justified s.env.regions = true := by
  obtain ⟨y, -, rfl⟩ | ⟨-, rfl⟩ | ⟨f, w, hformat, hf, rfl, rfl⟩ | ⟨-, hecall⟩ := exec_cases h
  · simp at hd
  · simp at hd
  · have hplaceholder : ∀ f ∈ [Format.load, .store, .fence, .jumpAndLinkRegister], isPlaceholder f = true := by decide
    rw [record_of_raise hd, Diagnostic.justified, hplaceholder f hf, hformat, beq_self_eq_true, Bool.and_self]
  · exact justified_of_execEcall hecall hd

/-- The record that a cycle adds to the channel says what its kind means. -/
theorem justified_of_step {s t : State} {d : Diagnostic} (h : step s = .next t)
    (hd : t.env.errors = s.env.errors ++ [d]) : d.justified s.env.regions = true := by
  obtain ⟨-, ⟨-, hspan, rfl⟩ | ⟨w, -, ⟨op, hroute, rfl⟩ | ⟨f, k, hroute, rfl⟩ | ⟨i, -, hexec⟩⟩⟩ := step_cases h
  · rw [record_of_raise hd]
    exact justified_memoryFault hspan
  · rw [record_of_raise hd, Diagnostic.justified, hroute, beq_self_eq_true]
  · rw [record_of_raise hd, Diagnostic.justified, route_key_of_unmatched hroute, beq_self_eq_true]
  · exact justified_of_exec hexec hd

/-! ## The latch -/

theorem latchAgrees_fatal (errors : List Diagnostic) (f : Fatal) :
    latchAgrees (.stopped f.cause) (errors ++ [.fatal f]) = true := by
  cases f <;> simp [latchAgrees, Fatal.cause]

end Sys2Proof.Machine

namespace Sys2Proof.Claims
open Sys2Proof.Machine

/-! ## One cycle's records -/

/-- A cycle makes at most one record. -/
theorem CycleEnd.errors_eq {s t : State} (h : CycleEnd s t) :
    t.env.errors = s.env.errors ∨ ∃ d, t.env.errors = s.env.errors ++ [d] := by
  cases h with
  | fatal f _ _ _ herrors => exact .inr ⟨_, herrors⟩
  | breakpoint _ _ herrors | completed _ herrors => exact .inl herrors
  | reported n _ herrors => exact .inr ⟨_, herrors⟩

/-- Every end of a cycle leaves a latch that agrees with the channel, since only a fatal end stops it with a fatal
cause. -/
theorem CycleEnd.latchAgrees {s t : State} (h : CycleEnd s t) : latchAgrees t.run t.env.errors = true := by
  cases h with
  | fatal f _ _ hrun herrors => rw [hrun, herrors]; exact latchAgrees_fatal _ f
  | breakpoint _ hrun _ | completed hrun _ | reported _ hrun _ => rw [hrun]; rfl

/-- Only ECALL reports a number, and it reports the one in `a0`. -/
theorem runs_ecall_of_reported {s t : State} {n : Word} (h : step s = .next t)
    (hn : t.env.errors = s.env.errors ++ [.unknownSyscall n]) : Runs s .ecall ∧ n = s.reg Params.regA0 := by
  obtain ⟨f, rfl⟩ | ⟨i, hi, hexec⟩ := step_raises_or_runs h
  · cases record_of_raise hn
  obtain ⟨y, -, rfl⟩ | ⟨-, rfl⟩ | ⟨f, w, -, -, -, rfl⟩ | ⟨rfl, hecall⟩ := exec_cases hexec
  · simp at hn
  · simp at hn
  · cases record_of_raise hn
  · obtain ⟨hd, -⟩ | ⟨ad, hd, -⟩ := record_of_execEcall hecall hn
    · exact ⟨hi, Diagnostic.unknownSyscall.inj hd⟩
    · cases hd

/-! ## The statements -/

/-- Settles O51: a cycle leaves memory and its bounds as they were, so the old records stay justified, and the one that it
may add is justified too. -/
theorem stepKeepsInvariant : Obligations.StepKeepsInvariant := by
  unfold Obligations.StepKeepsInvariant
  intro s t hinv h
  obtain ⟨-, hmem, hregions⟩ := coreNeverWritesMemory s t h
  have hend := cycleEnd_of_step h
  refine ⟨by rw [hmem]; exact hinv.memoryCanonical, fun d hd => ?_, hend.latchAgrees⟩
  rw [hregions]
  obtain herrors | ⟨new, herrors⟩ := hend.errors_eq
  · rw [herrors] at hd
    exact hinv.recordsJustified d hd
  · rw [herrors, List.mem_append, List.mem_singleton] at hd
    obtain hd | rfl := hd
    · exact hinv.recordsJustified d hd
    · exact justified_of_step h herrors

/-- Settles O52: a create request keeps the memory, has no record to justify and sets the latch to running. -/
theorem resetEstablishesInvariant : Obligations.ResetEstablishesInvariant := by
  unfold Obligations.ResetEstablishesInvariant
  have hcreate : ∀ (l : Layout) (e : Env), e.mem.wf = true → e.errors = [] → Inv (State.create l e) :=
    fun l e hmem herrors => ⟨hmem, fun d hd => absurd hd (by simp [State.create, herrors]), rfl⟩
  exact ⟨hcreate, hcreate Params.layout Env.initial rfl rfl⟩

/-- Settles O40: by the four ends of a cycle; a reported number is the justified record of an ECALL. -/
theorem atMostOneDiagnostic : Obligations.AtMostOneDiagnostic := by
  unfold Obligations.AtMostOneDiagnostic
  intro s t h
  have hend := cycleEnd_of_step h
  refine ⟨hend.errors_eq, fun n hn => ?_, fun hrun => ?_⟩
  · obtain ⟨hi, hnum⟩ := runs_ecall_of_reported h hn
    exact ⟨hi, hnum, justified_unknownSyscall_iff.1 (justified_of_step h hn)⟩
  · cases hend with
    | fatal f _ _ hstop _ => exact absurd (Run.stopped.inj (hstop.symm.trans hrun)) f.cause_ne_breakpoint
    | breakpoint hi _ herrors => exact ⟨hi, herrors⟩
    | completed hrunning _ | reported _ hrunning _ => cases hrunning.symm.trans hrun

end Sys2Proof.Claims
end

section
/-! PROOF. The stops that a word's opcode alone decides: UnrecognizedFormat (30_encoding.md R79, 60_exceptions.md R206) and
the NotImplemented of the four placeholder formats (47_placeholders.md R195 to R198). -/

namespace Sys2Proof.Claims
open Sys2Proof.Machine

/-! ## Unrecognised opcodes -/

/-- The eleven opcodes, in the order of 30_encoding.md R68. -/
def formatOpcodes : List (BitVec 7) :=
  [0x33#7, 0x63#7, 0x13#7, 0x03#7, 0x23#7, 0x37#7, 0x17#7, 0x6F#7, 0x67#7, 0x0F#7, 0x73#7]

theorem opcode_mem_formatOpcodes (f : Format) : f.opcode ∈ formatOpcodes := by cases f <;> decide

theorem formatOf_ne_none_of_mem : ∀ op ∈ formatOpcodes, formatOf op ≠ none := by decide

theorem formatOf_eq_none_iff (op : BitVec 7) : formatOf op = none ↔ op ∉ formatOpcodes := by
  refine ⟨fun hnone hmem => formatOf_ne_none_of_mem op hmem hnone, fun hno => ?_⟩
  cases hf : formatOf op with
  | none => rfl
  | some f => exact absurd (opcode_of_formatOf hf ▸ opcode_mem_formatOpcodes f) hno

/-- Settles O8: such an opcode has no format, and a word of a format is never unrecognised. -/
theorem unrecognizedOpcodesStop : Obligations.UnrecognizedOpcodesStop := by
  unfold Obligations.UnrecognizedOpcodesStop
  refine ⟨fun s w hs hop => ?_, fun w hop op v hroute => ?_⟩
  · have hroute := route_of_unrecognized ((formatOf_eq_none_iff _).2 hop)
    exact ⟨_, by rw [step_of_fetches hs, hroute, dispatch], fatalStop_raise s _⟩
  · exact (formatOf_eq_none_iff _).1 (format_of_unrecognized hroute) hop

/-! ## Placeholders -/

theorem placeholder_stops {s : State} {w : Word} {f : Format} {i : Instr} (hop : opcodeOf w = f.opcode)
    (hsel : select (fieldsUnder w f) = some i) (hkept : keptBits i = BitVec.allOnes 32)
    (hexec : exec i s = raiseNotImplemented f (encode i) s) :
    ∃ t, route w = .instr i ∧ exec i s = .next t ∧ FatalStop s t (.notImplemented f w) := by
  have hroute := route_of_select hop hsel
  have hword : encode i = w := by rw [encodeOfDecodeClearsIgnoredBits w i hroute, hkept, BitVec.and_allOnes]
  exact ⟨_, hroute, by rw [hexec, hword, raiseNotImplemented], fatalStop_raise s _⟩

/-- Settles O31: a placeholder instruction keeps every bit of its word, so its own encoding is the fetched word. -/
theorem placeholdersStop : Obligations.PlaceholdersStop := by
  unfold Obligations.PlaceholdersStop
  intro s w
  refine ⟨fun hop => ?_, fun hop => ?_, fun hop => ?_, fun hop => ?_⟩
  · exact ⟨_, _, _, _, placeholder_stops (f := .load) hop rfl rfl rfl⟩
  · exact ⟨_, _, _, _, placeholder_stops (f := .store) hop rfl rfl rfl⟩
  · exact ⟨_, _, _, _, placeholder_stops (f := .fence) hop rfl rfl rfl⟩
  · exact ⟨_, _, _, _, placeholder_stops (f := .jumpAndLinkRegister) hop rfl rfl rfl⟩

/-- Settles O32: the meaning of each is its stop, by definition. -/
theorem placeholderInstructionsComplete : Obligations.PlaceholderInstructionsComplete := by
  unfold Obligations.PlaceholderInstructionsComplete
  intro s imm r r' f3
  exact ⟨⟨_, rfl, fatalStop_raise s _⟩, ⟨_, rfl, fatalStop_raise s _⟩, ⟨_, rfl, fatalStop_raise s _⟩,
    ⟨_, rfl, fatalStop_raise s _⟩⟩

end Sys2Proof.Claims
end

section
/-! PROOF. The load of a program's word from outside the machine (70_reset_and_hazards.md R244, R245;
notes/assumptions/3.md), and the requests of the host (R240, R243). -/

namespace Sys2Proof.Machine

/-! ## A word in memory -/

theorem Memory.readByte_writeByte {m : Memory} (hm : m.wf = true) (a c : Nat) (b : Byte) :
    (m.writeByte a b).readByte c = if c = a then b else m.readByte c := by
  by_cases h : c = a
  · rw [if_pos h, h, Memory.readByte_writeByte_same hm]
  · rw [if_neg h, Memory.readByte_writeByte_other h]

/-- A word below the top of memory is read back byte by byte. -/
theorem Memory.readByte_writeWord {m : Memory} {a : Word} (hm : m.wf = true) (htop : a.toNat + 4 ≤ 2 ^ 32) (w : Word)
    {k : Nat} (hk : k < 4) : (m.writeWord a w).readByte (a.toNat + k) = byteOfWord w k := by
  have haddr : ∀ j, j < 4 → (a + BitVec.ofNat 32 j).toNat = a.toNat + j := fun j hj => by
    rw [BitVec.toNat_add, BitVec.toNat_ofNat]
    omega
  have hm₀ := Memory.wf_writeByte (b := byteOfWord w 0) a.isLt hm
  have hm₁ := Memory.wf_writeByte (b := byteOfWord w 1) (a + 1#32).isLt hm₀
  have hm₂ := Memory.wf_writeByte (b := byteOfWord w 2) (a + 2#32).isLt hm₁
  rw [Memory.writeWord, Memory.readByte_writeByte hm₂, Memory.readByte_writeByte hm₁, Memory.readByte_writeByte hm₀,
    Memory.readByte_writeByte hm, haddr 1 (by decide), haddr 2 (by decide), haddr 3 (by decide)]
  interval_cases k <;> simp

/-! ## The placed word -/

theorem spanInRange_regionsCovering (rs : List Region) {a : Word} (htop : a.toNat + 4 ≤ 2 ^ 32) :
    spanInRange (regionsCovering rs a) a.toNat 4 = true := by
  unfold regionsCovering
  split
  · assumption
  · refine (spanInRange_iff ..).2 ⟨htop, fun k hk => ?_⟩
    simp [inRegions, Region.covers, hk]

theorem placeAtPc_pc (w : Word) (s : State) : (placeAtPc w s).pc = s.pc := rfl

theorem fetch_placeAtPc {s : State} (hm : s.env.mem.wf = true) (htop : s.pc.toNat + 4 ≤ 2 ^ 32) (w : Word) :
    fetch (placeAtPc w s) = .word w := by
  have hbyte : ∀ k, k < 4 → (placeAtPc w s).env.mem.readByte (s.pc.toNat + k) = byteOfWord w k :=
    fun k hk => Memory.readByte_writeWord hm htop w hk
  have hfirst : (placeAtPc w s).env.mem.readByte s.pc.toNat = byteOfWord w 0 := hbyte 0 (by decide)
  rw [fetch_of_inRange (spanInRange_regionsCovering _ htop), placeAtPc_pc, hfirst, hbyte 1 (by decide),
    hbyte 2 (by decide), hbyte 3 (by decide), wordOfBytes_byteOfWord]

theorem withFetchWord_toNat (s : State) (w : Word) : s.withFetchWord 32 w.toNat = placeAtPc w s := by
  rw [State.withFetchWord, Nat.mod_eq_of_lt w.isLt, BitVec.ofNat_toNat, BitVec.setWidth_eq]

end Sys2Proof.Machine

namespace Sys2Proof.Claims
open Sys2Proof.Machine

/-- Settles O46: the four bytes placed at `pc` are readable and are the word. -/
theorem placedWordRunsNext : Obligations.PlacedWordRunsNext := by
  unfold Obligations.PlacedWordRunsNext
  intro s w i hm htop hroute
  rw [withFetchWord_toNat]
  exact step_instr rfl (fetch_placeAtPc hm htop w) hroute

/-- Settles O50: each answer is that of the request's definition. -/
theorem createAndDestroy : Obligations.CreateAndDestroy := by
  unfold Obligations.CreateAndDestroy
  refine ⟨fun _ _ => rfl, fun _ => rfl, fun e q h => ?_⟩
  cases (h : Host.Outcome.fault Fault.noCore = .next q)

end Sys2Proof.Claims
end

section
/-! PROOF. Every requested cycle of a running core ends (70_reset_and_hazards.md R254): ECALL's string scan is the only
part of a cycle that might not, and it passes over every address before it gives up. -/

namespace Sys2Proof.Machine

/-! ## An endless scan -/

theorem Scan.cons_eq_endless {b : Byte} {sc : Scan} : sc.cons b = .endless ↔ sc = .endless := by
  cases sc <;> simp [Scan.cons]

/-- A scan that reached no end has met only readable bytes other than NUL. -/
theorem scanString_endless {rs : List Region} {m : Memory} {fuel : Nat} {a : Word}
    (h : scanString rs m fuel a = .endless) {k : Nat} (hk : k < fuel) :
    inRegions rs (a + BitVec.ofNat 32 k).toNat = true ∧ m.readByte (a + BitVec.ofNat 32 k).toNat ≠ 0#8 := by
  induction fuel generalizing a k with
  | zero => omega
  | succ fuel ih =>
    have hr : inRegions rs a.toNat = true := by
      by_contra hr
      rw [scanString_of_unreadable (Bool.eq_false_iff.2 hr)] at h
      cases h
    have hne : m.readByte a.toNat ≠ 0#8 := by
      intro h0
      rw [scanString_of_nul hr h0] at h
      cases h
    rw [scanString_of_char hr rfl hne, Scan.cons_eq_endless] at h
    cases k with
    | zero => simpa using ⟨hr, hne⟩
    | succ k =>
      have next : a + BitVec.ofNat 32 (k + 1) = a + 1#32 + BitVec.ofNat 32 k := by
        rw [BitVec.add_assoc, Nat.add_comm k 1, BitVec.ofNat_add]
      rw [next]
      exact ih h (Nat.lt_of_succ_lt_succ hk)

/-- Counting from any start, the handler's scan passes over every address: it wraps at the top. -/
theorem scanString_endless_all {rs : List Region} {m : Memory} {a : Word}
    (h : scanString rs m addressSpace a = .endless) (b : Word) :
    inRegions rs b.toNat = true ∧ m.readByte b.toNat ≠ 0#8 := by
  have hb : a + BitVec.ofNat 32 (b - a).toNat = b := by
    rw [BitVec.ofNat_toNat, BitVec.setWidth_eq, BitVec.add_comm, BitVec.sub_add_cancel]
  simpa only [hb] using scanString_endless h (b - a).isLt

/-- The handler reaches no end only where its string scan reaches none. -/
theorem scanString_of_syscall_endless {n a : Word} {e : Env} (h : syscall n a e = .endless) :
    scanString e.regions e.mem addressSpace a = .endless := by
  cases hscan : scanString e.regions e.mem addressSpace a with
  | endless => rfl
  | nul text | outOfRange text ad =>
    rw [syscall, hscan] at h
    split_ifs at h

/-! ## Completion -/

theorem exists_next_afterSyscall (n : Word) (ans : Answer) (e : Env) (s : State) :
    ∃ t, afterSyscall n (.answered ans e) s = .next t := by
  cases ans with
  | ok v => cases v <;> exact ⟨_, rfl⟩
  | unknown | memFault => exact ⟨_, rfl⟩

theorem exists_next_execEcall {s : State}
    (h : scanString s.env.regions s.env.mem addressSpace (s.reg Params.regA1) ≠ .endless) :
    ∃ t, execEcall s = .next t := by
  cases hsys : syscall (s.reg Params.regA0) (s.reg Params.regA1) s.env with
  | endless => exact absurd (scanString_of_syscall_endless hsys) h
  | answered ans e =>
    rw [execEcall, hsys]
    exact exists_next_afterSyscall _ ans e s

/-- Where ECALL answers a next state, every instruction does. -/
theorem exists_next_exec {s : State} (h : ∃ t, execEcall s = .next t) (i : Instr) : ∃ t, exec i s = .next t := by
  cases i with
  | ecall => exact h
  | _ => exact ⟨_, rfl⟩

end Sys2Proof.Machine

namespace Sys2Proof.Claims
open Sys2Proof.Machine

/-- Where ECALL answers a next state, a running core takes a step. -/
theorem exists_next_step {s : State} (hrun : s.run = .running) (h : ∃ t, execEcall s = .next t) :
    ∃ t, step s = .next t := by
  obtain ⟨-, w, hfetch⟩ | ⟨hspan, -⟩ := fetch_cases s
  · rw [step_of_fetches ⟨hrun, hfetch⟩]
    cases route w with
    | instr i => exact exists_next_exec h i
    | unmatched | unrecognized => exact ⟨_, rfl⟩
  · exact ⟨_, step_fetchFault hrun hspan⟩

/-- Settles O48: an endless scan would have passed over the given address too, and found it readable and not NUL. -/
theorem everyCycleEnds : Obligations.EveryCycleEnds := by
  unfold Obligations.EveryCycleEnds
  intro s hrun ⟨a, ha, hstop⟩
  refine exists_next_step hrun (exists_next_execEcall fun hendless => ?_)
  obtain ⟨hr, hne⟩ := scanString_endless_all hendless (BitVec.ofNat 32 a)
  rw [BitVec.toNat_ofNat, Nat.mod_eq_of_lt ha] at hr hne
  obtain hunmapped | hnul := hstop
  · exact hunmapped ((mapped_iff s a).2 hr)
  · exact hne hnul

end Sys2Proof.Claims
end
